-- ==== Sys2Proof/Word.lean ====
section
/-! DEFINITION. The word types of the codec (00_scope.md R6, R8): every value is unsigned. -/

namespace Sys2Proof

/-- One code unit of an encoded stream and one element of a decoded stream: `UNIT_BITS = 16` (R6). -/
abbrev Word := BitVec 16

/-- The opcode field of a header: `OPCODE_BITS = 8` (R6). -/
abbrev Opcode := BitVec 8

/-- The operand-count field of a header: `CNT_BITS = 4` (R6). -/
abbrev Count := BitVec 4

/-- Bits 15..12 of a header, the field `rsv` (30_encoding.md R50). -/
abbrev Rsv := BitVec 4

/-- One byte of a byte artifact (42_representation.md R100). -/
abbrev Byte := BitVec 8

end Sys2Proof
end

