-- ==== Sys2Proof/Config.lean ====
section
/-! DEFINITION. What an implementation fixes and what the spec leaves free: the parameters of 00_scope.md R6 and R7,
and the free values of the step latches and of a discarded output (10_state.md R20, 93_implementation_defined.md
U20). -/

namespace Sys2Proof

/-- Input values per record: an opcode and three operand slots (R6). -/
def Config.recordArity : Nat := 4

/-- The largest opcode the encoder accepts (R6). -/
def Config.maxOpcode : Nat := 255

/-- The largest operand value the encoder accepts (R6). -/
def Config.maxOperand : Nat := 65535

/-- The largest legal operand count (R6). -/
def Config.maxOperands : Nat := 3

/-- The bit position of the count field in a header (R6). -/
def Config.cntLsb : Nat := 8

/-- `ArtifactByteOrder`, an OPEN parameter of the byte adapters (R7, 42_representation.md R100). -/
inductive ByteOrder where
  | little
  | big
deriving DecidableEq, Repr

/-- The parameters that are fixed when the instance is built (R7, 10_state.md R25). -/
structure Params where
  /-- `MaxInputLen`: the largest payload length, `none` for unbounded (R7, 60_exceptions.md R116). -/
  maxInputLen : Option Nat
deriving DecidableEq, Repr

/-- The step latches of 10_state.md R20. `t`, `a`, `b`, `c` are naturals until they are validated. -/
structure Latches where
  t   : Nat
  a   : Nat
  b   : Nat
  c   : Nat
  n   : Count
  hdr : Word
deriving DecidableEq, Repr, Inhabited

/-- The free values of the latches between steps: "undefined between steps" (R20), `any value` (U20). It has no
body, so nothing can be proved about a value of it. DESIGN CHOICE (log 3). -/
opaque Config.freeLatches : Nat → Latches

/-- The free value of a discarded output buffer: `any value` (U20), never delivered (60_exceptions.md R109). It has no
body. DESIGN CHOICE (log 7). -/
opaque Config.freeOut : Nat → List Word

end Sys2Proof
end

