-- ==== Sys2Proof/Syntax.lean ====
section
/-! DEFINITION. The instructions: one constructor for every row of spec/opcode_table.json, and the raw forms in which
they reach the block: a request at the request port, a unit at a header position, a unit at an operand position. -/

namespace Sys2Proof

/-- One constructor per row of the opcode table. The operand words of a header are not fields of it: the header step
reads them from the input once its checks pass (41_decoder.md R83). -/
inductive Instr where
  /-- The command ENCODE with its program (40_encoder.md R65). -/
  | encode (program : List Nat)
  /-- The command DECODE with its stream (41_decoder.md R81). -/
  | decode (stream : List Word)
  /-- A header with no operand words (41_decoder.md R84). -/
  | h0 (rsv : Rsv) (t : Opcode)
  /-- A header with one operand word (41_decoder.md R85). -/
  | h1 (rsv : Rsv) (t : Opcode)
  /-- A header with two operand words (41_decoder.md R86). -/
  | h2 (rsv : Rsv) (t : Opcode)
  /-- A header with three operand words (41_decoder.md R87). -/
  | h3 (rsv : Rsv) (t : Opcode)
  /-- The twelve illegal header classes (41_decoder.md R88). -/
  | illegalCnt4 (rsv : Rsv) (t : Opcode)
  | illegalCnt5 (rsv : Rsv) (t : Opcode)
  | illegalCnt6 (rsv : Rsv) (t : Opcode)
  | illegalCnt7 (rsv : Rsv) (t : Opcode)
  | illegalCnt8 (rsv : Rsv) (t : Opcode)
  | illegalCnt9 (rsv : Rsv) (t : Opcode)
  | illegalCnt10 (rsv : Rsv) (t : Opcode)
  | illegalCnt11 (rsv : Rsv) (t : Opcode)
  | illegalCnt12 (rsv : Rsv) (t : Opcode)
  | illegalCnt13 (rsv : Rsv) (t : Opcode)
  | illegalCnt14 (rsv : Rsv) (t : Opcode)
  | illegalCnt15 (rsv : Rsv) (t : Opcode)
  /-- One raw operand word, recognised by its position only (30_encoding.md R53, R57). -/
  | operandWord (value : Word)
deriving DecidableEq, Repr

/-- A request `(cmd, payload)` as it is offered (10_state.md R14): `cmd` is 1 bit, the payload a sequence of elements.
Both payload kinds are carried as naturals; a DECODE payload must hold 16-bit units (`Request.wf`). -/
structure Request where
  cmd     : BitVec 1
  payload : List Nat
deriving DecidableEq, Repr

/-- What the block fetches, by the position it is fetched from: the position alone says how a unit is read (R57). -/
inductive Fetched where
  /-- A request at the request port (format "command"). -/
  | request (r : Request)
  /-- A unit at a header position (format "header"). -/
  | header (h : Word)
  /-- A unit at an operand position (format "operand"). -/
  | operand (w : Word)
deriving DecidableEq, Repr

end Sys2Proof
end

