-- ==== Sys2Proof/WellFormed.lean ====
section
/-! DEFINITION. Which requests and instructions are well formed: a payload that the port carries (10_state.md R14) and
that is no longer than `MaxInputLen` (60_exceptions.md R116). What an operation itself reports as an error (a ragged
program, a value out of range, a bad header) is well formed: the block answers it. -/

namespace Sys2Proof

/-- A payload of `len` elements does not exceed `MaxInputLen` (20_memory.md R32, 60_exceptions.md R116). -/
def Params.admits (ps : Params) (len : Nat) : Bool :=
  match ps.maxInputLen with
  | none => true
  | some m => decide (len ≤ m)

/-- The payload is one the port carries: a DECODE payload is a sequence of 16-bit units (10_state.md R14). -/
def Request.wf (r : Request) : Bool :=
  r.cmd == 0 || r.payload.all (fun v => decide (v < 65536))

/-- A command's payload is admitted by the instance (R116); every header and every operand word is well formed:
illegal header classes raise an error of the operation (41_decoder.md R88), and all 256 opcodes are legal (R59). -/
def Instr.wf (ps : Params) : Instr → Bool
  | .encode p => ps.admits p.length
  | .decode s => ps.admits s.length
  | .h0 _ _ => true
  | .h1 _ _ => true
  | .h2 _ _ => true
  | .h3 _ _ => true
  | .illegalCnt4 _ _ => true
  | .illegalCnt5 _ _ => true
  | .illegalCnt6 _ _ => true
  | .illegalCnt7 _ _ => true
  | .illegalCnt8 _ _ => true
  | .illegalCnt9 _ _ => true
  | .illegalCnt10 _ _ => true
  | .illegalCnt11 _ _ => true
  | .illegalCnt12 _ _ => true
  | .illegalCnt13 _ _ => true
  | .illegalCnt14 _ _ => true
  | .illegalCnt15 _ _ => true
  | .operandWord _ => true

end Sys2Proof
end

