-- ==== Sys2Proof/Decode.lean ====
section
/-! DEFINITION. The decoder (fields of a header, header classes, requests; 30_encoding.md R50 to R62, 10_state.md R14),
and after it the encoder, written from the same layouts. Decoding is total; what it refuses it refuses by name. -/

namespace Sys2Proof

/-- Why the decoder refuses what it is given. -/
inductive Reject where
  /-- A DECODE payload holds an element that is no 16-bit unit: outside the request domain (10_state.md R14). -/
  | payloadNotUnits
deriving DecidableEq, Repr

/-- `type = hdr[7:0]` (R50, R52). -/
def hdrType (h : Word) : Opcode := h.extractLsb' 0 8

/-- `cnt = hdr[11:8]` (R50, R52). -/
def hdrCnt (h : Word) : Count := h.extractLsb' 8 4

/-- `rsv = hdr[15:12]`, which no value or check of the decoder depends on (R52, R61). -/
def hdrRsv (h : Word) : Rsv := h.extractLsb' 12 4

/-- `zext_16` of an opcode (00_scope.md R8, 30_encoding.md R58). -/
def zext16 (t : Opcode) : Word := t.setWidth 16

/-- The unit at a header position is read by its count field alone (R57, R59): sixteen classes, none reserved.
The last pattern is the one value of a 4-bit field that is left, 15. -/
def decodeHeader (h : Word) : Instr :=
  match (hdrCnt h).toNat with
  | 0 => .h0 (hdrRsv h) (hdrType h)
  | 1 => .h1 (hdrRsv h) (hdrType h)
  | 2 => .h2 (hdrRsv h) (hdrType h)
  | 3 => .h3 (hdrRsv h) (hdrType h)
  | 4 => .illegalCnt4 (hdrRsv h) (hdrType h)
  | 5 => .illegalCnt5 (hdrRsv h) (hdrType h)
  | 6 => .illegalCnt6 (hdrRsv h) (hdrType h)
  | 7 => .illegalCnt7 (hdrRsv h) (hdrType h)
  | 8 => .illegalCnt8 (hdrRsv h) (hdrType h)
  | 9 => .illegalCnt9 (hdrRsv h) (hdrType h)
  | 10 => .illegalCnt10 (hdrRsv h) (hdrType h)
  | 11 => .illegalCnt11 (hdrRsv h) (hdrType h)
  | 12 => .illegalCnt12 (hdrRsv h) (hdrType h)
  | 13 => .illegalCnt13 (hdrRsv h) (hdrType h)
  | 14 => .illegalCnt14 (hdrRsv h) (hdrType h)
  | _ => .illegalCnt15 (hdrRsv h) (hdrType h)

/-- `cmd = 0` is ENCODE, `cmd = 1` is DECODE; the block has no other command (10_state.md R14). -/
def decodeRequest (r : Request) : Except Reject Instr :=
  if r.cmd = 0 then .ok (.encode r.payload)
  else if r.wf then .ok (.decode (r.payload.map (BitVec.ofNat 16)))
  else .error .payloadNotUnits

/-- The decoder. -/
def decode : Fetched → Except Reject Instr
  | .request r => decodeRequest r
  | .header h => .ok (decodeHeader h)
  | .operand w => .ok (.operandWord w)

/-- A header unit from its three fields: `rsv` in bits 15..12, `cnt` in bits 11..8, `type` in bits 7..0 (R50). -/
def makeHeader (rsv : Rsv) (n : Count) (t : Opcode) : Word := (rsv ++ n) ++ t

/-- The encoder of instructions: the request, or the unit at its position, that stands for the instruction. -/
def encode : Instr → Fetched
  | .encode p => .request ⟨0, p⟩
  | .decode s => .request ⟨1, s.map BitVec.toNat⟩
  | .h0 rsv t => .header (makeHeader rsv 0 t)
  | .h1 rsv t => .header (makeHeader rsv 1 t)
  | .h2 rsv t => .header (makeHeader rsv 2 t)
  | .h3 rsv t => .header (makeHeader rsv 3 t)
  | .illegalCnt4 rsv t => .header (makeHeader rsv 4 t)
  | .illegalCnt5 rsv t => .header (makeHeader rsv 5 t)
  | .illegalCnt6 rsv t => .header (makeHeader rsv 6 t)
  | .illegalCnt7 rsv t => .header (makeHeader rsv 7 t)
  | .illegalCnt8 rsv t => .header (makeHeader rsv 8 t)
  | .illegalCnt9 rsv t => .header (makeHeader rsv 9 t)
  | .illegalCnt10 rsv t => .header (makeHeader rsv 10 t)
  | .illegalCnt11 rsv t => .header (makeHeader rsv 11 t)
  | .illegalCnt12 rsv t => .header (makeHeader rsv 12 t)
  | .illegalCnt13 rsv t => .header (makeHeader rsv 13 t)
  | .illegalCnt14 rsv t => .header (makeHeader rsv 14 t)
  | .illegalCnt15 rsv t => .header (makeHeader rsv 15 t)
  | .operandWord w => .operand w

/-- A word of the opcode table as the block meets it first. The table gives a command row one bit (in a byte) and a
header row sixteen: up to eight bits are a request whose `cmd` is bit 0 (the row's mask) with an empty payload, more
bits are a unit at a header position. A unit at an operand position is no first word of anything (R57; log 10, log 11). -/
def tableFetched (nbits w : Nat) : Fetched :=
  if nbits ≤ 8 then .request ⟨BitVec.ofNat 1 w, []⟩ else .header (BitVec.ofNat 16 w)

/-- The decoder's reading of a word of the opcode table. -/
def decodeTableWord (nbits w : Nat) : Option Instr :=
  (decode (tableFetched nbits w)).toOption

end Sys2Proof
end

