-- ==== Sys2Proof/Machine/State.lean ====
section
/-! DEFINITION. The state of one block instance (10_state.md), all of it plain data, and its value after reset (R28). -/

namespace Sys2Proof.Machine

/-- The error kinds with their `info` fields (60_exceptions.md R108, R110 to R115; log 18). -/
inductive ErrorInfo where
  /-- A record's opcode exceeds 255 (R110). -/
  | opcodeTooLarge (value record : Nat)
  /-- An operand slot, 1 to 3, of a record exceeds 65535 (R111). -/
  | operandTooLarge (value record slot : Nat)
  /-- A legal header declares more operand words than remain (R112). -/
  | truncatedStream (position count remaining : Nat)
  /-- A header's count is 4 to 15 (R113). -/
  | corruptStream (position count : Nat)
  /-- The program's length is no multiple of 4 (R114). -/
  | raggedProgram (length : Nat)
  /-- A byte artifact has an odd length: an adapter result, never a response of the block (R115). -/
  | oddLengthArtifact (byteLength : Nat)
deriving DecidableEq, Repr

/-- The response of an operation (10_state.md R15). -/
inductive Response where
  | ok (units : List Word)
  | err (code : Nat) (info : ErrorInfo)
deriving DecidableEq, Repr

/-- The status `st` of an operation (10_state.md R23). -/
inductive Status where
  | run
  | done
  | fault (code : Nat) (info : ErrorInfo)
deriving DecidableEq, Repr

/-- The encoder's working state (10_state.md R18). -/
structure EncWork where
  /-- `In`, the snapshot of the program (20_memory.md R33). -/
  input : List Nat
  /-- `i`, the index of the next record's opcode. -/
  i     : Nat
  /-- `Out`. -/
  out   : List Word
  st    : Status
deriving DecidableEq, Repr

/-- The decoder's working state (10_state.md R19). -/
structure DecWork where
  /-- `In`, the snapshot of the stream (20_memory.md R33). -/
  input : List Word
  /-- `j`, the index of the next header word. -/
  j     : Nat
  /-- `Out`. -/
  out   : List Word
  st    : Status
deriving DecidableEq, Repr

/-- The phase together with the working state that exists only in that phase (10_state.md R16, R18, R19). -/
inductive Operation where
  | idle
  | enc (w : EncWork)
  | dec (w : DecWork)
deriving DecidableEq, Repr

/-- The phase alone (10_state.md R16). -/
inductive Phase where
  | idle
  | busyEnc
  | busyDec
deriving DecidableEq, Repr

/-- One block instance at a step boundary. -/
structure State where
  /-- The parameters fixed when the instance is built (10_state.md R25). -/
  params    : Params
  /-- `phase` and the working state. -/
  op        : Operation
  /-- The request port: requests offered and held, oldest first (10_state.md R14, R30; log 8). -/
  offered   : List Request
  /-- The response port: responses delivered, oldest first (10_state.md R15; log 9). -/
  responses : List Response
  /-- The step latches (10_state.md R20); free values at every step boundary (log 3). -/
  latches   : Latches
  /-- The model's own counter of free values (log 3). -/
  fresh     : Nat
deriving DecidableEq, Repr

/-- Why the machine stops with a fault. No error of the spec is among these: those are responses (60_exceptions.md
R107). Both are safe: the spec has no step there, and no run reaches them (10_state.md R22). -/
inductive Fault where
  /-- Raised by a header or operand word that is executed where no header step is due: phase not BUSY_DEC, `st` not
  RUN, or the cursor at the end of the input (41_decoder.md R83); and by `State.respond` with nothing to deliver.
  `step` never does this. Safe. -/
  | noRecordStep
  /-- Raised by an ENCODE record step with fewer than four elements left, and by an operation whose cursor is past the
  end of its input: "a read of k >= len(In) never occurs" (00_scope.md R10). Safe. -/
  | readPastEnd
deriving DecidableEq, Repr

/-- Why the model gives no step. -/
inductive Refusal where
  /-- Raised by an arm of `exec` whose instruction has no meaning yet; no arm is left with it. Safe. -/
  | notModelled (mnemonic : String)
  /-- Raised by the request port when a request longer than `MaxInputLen` is offered, and by the acceptance of one, which
  no run reaches: the spec gives it no step and no response (60_exceptions.md R116; log 5). Safe. -/
  | overLongRequest (length : Nat)
  /-- Raised by the request port when a DECODE request is offered whose payload is no sequence of 16-bit units, and by
  `step` for one at the head of the port, which no run reaches: outside the request domain (10_state.md R14,
  93_implementation_defined.md U13; log 6). Safe. -/
  | payloadNotUnits
  /-- Raised by a command executed while another operation is in progress: a held request has no step
  (10_state.md R30). `step` never does this. Safe. -/
  | heldWhileBusy
deriving DecidableEq, Repr

/-- An instance with the given parameters after reset (10_state.md R28): IDLE, no working state, no response
pending. The latches are "absent": free values (log 3). -/
def State.resetWith (ps : Params) : State where
  params    := ps
  op        := .idle
  offered   := []
  responses := []
  latches   := Config.freeLatches 0
  fresh     := 1

/-- The machine right after reset. `MaxInputLen` is OPEN; DESIGN CHOICE: unbounded (log 4). -/
def State.reset : State := State.resetWith ⟨none⟩

end Sys2Proof.Machine
end

