-- ==== Sys2Proof/Machine/Flags.lean ====
section
/-! DEFINITION. The block has no flags (00_scope.md R11): the status `st` and the conditions that decide it stand in
for them. Every condition a rule tests, every error a check raises, the error codes, and the response of a status. -/

namespace Sys2Proof.Machine

/-- The numeric code of an error kind (60_exceptions.md R108). -/
def ErrorInfo.code : ErrorInfo → Nat
  | .opcodeTooLarge _ _ => 1
  | .operandTooLarge _ _ _ => 2
  | .truncatedStream _ _ _ => 3
  | .corruptStream _ _ => 4
  | .raggedProgram _ => 5
  | .oddLengthArtifact _ => 6

/-- The code of a response: 0 means `Ok` (10_state.md R24). -/
def Response.code : Response → Nat
  | .ok _ => 0
  | .err code _ => code

/-- `type > 255` (40_encoder.md R68). -/
def opcodeOver (t : Nat) : Bool := decide (Config.maxOpcode < t)

/-- An operand `> 65535` (40_encoder.md R69). -/
def operandOver (v : Nat) : Bool := decide (Config.maxOperand < v)

/-- The first check of record `k` that fails, in the order opcode, op1, op2, op3 (40_encoder.md R67;
60_exceptions.md R117). -/
def recordError (k t a b c : Nat) : Option ErrorInfo :=
  if opcodeOver t then some (.opcodeTooLarge t k)
  else if operandOver a then some (.operandTooLarge a k 1)
  else if operandOver b then some (.operandTooLarge b k 2)
  else if operandOver c then some (.operandTooLarge c k 3)
  else none

/-- `len(In) mod 4 != 0` (40_encoder.md R66). -/
def raggedLength (len : Nat) : Bool := len % Config.recordArity != 0

/-- The check of a header at `j` with count `n` in an input of `len` units: the count's range first, then the words
that remain (41_decoder.md R83, R88 to R90). -/
def headerError (j n len : Nat) : Option ErrorInfo :=
  if Config.maxOperands < n then some (.corruptStream j n)
  else if len < j + 1 + n then some (.truncatedStream j n (len - j - 1))
  else none

/-- The response a status delivers, none while the operation runs (10_state.md R23). -/
def Status.response (st : Status) (out : List Word) : Option Response :=
  match st with
  | .run => none
  | .done => some (.ok out)
  | .fault code info => some (.err code info)

end Sys2Proof.Machine
end

