-- ==== Sys2Proof/Machine/Operands.lean ====
section
/-! DEFINITION. The operand forms: reading a record of the program (30_encoding.md R49), counting and selecting its
operands (R54, R55), forming its header (R51), and reading the operand words of a header (R57, R58). -/

namespace Sys2Proof.Machine

/-- `bool_to_nat` (00_scope.md R8). -/
def boolToNat (b : Bool) : Nat := if b then 1 else 0

/-- `MemRead(In, k)` (00_scope.md R10): an element exists only below the length. -/
def memRead {α : Type} (input : List α) (k : Nat) : Option α := input[k]?

/-- The record at cursor `i`: elements `i` to `i+3` (20_memory.md R38), none if fewer than four are left. -/
def readRecord (input : List Nat) (i : Nat) : Option (Nat × Nat × Nat × Nat) :=
  match memRead input i, memRead input (i + 1), memRead input (i + 2), memRead input (i + 3) with
  | some t, some a, some b, some c => some (t, a, b, c)
  | _, _, _, _ => none

/-- The number of non-zero operands, whatever their slots (R54, 40_encoder.md R70). -/
def operandCount (a b c : Nat) : Nat :=
  boolToNat (a != 0) + boolToNat (b != 0) + boolToNat (c != 0)

/-- The emitted operands: always the first `n` slots, in slot order (R55, 40_encoder.md R72). -/
def selectOperands (n a b c : Nat) : List Nat := [a, b, c].take n

/-- The header the encoder forms: `type | (n << 8)` (R51, 40_encoder.md R71). -/
def formHeader (t n : Nat) : Word := BitVec.ofNat 16 (t ||| (n <<< Config.cntLsb))

/-- A validated operand as one unit, value unchanged (R55). -/
def operandUnit (v : Nat) : Word := BitVec.ofNat 16 v

/-- The `n` units that follow a header, from `at` on: `In[at .. at+n)` (R58). -/
def operandWords (input : List Word) (start n : Nat) : List Word := (input.drop start).take n

end Sys2Proof.Machine
end

