-- ==== Sys2Proof/Machine/Ops.lean ====
section
/-! DEFINITION. The named operations every meaning is written over: reading the phase, writing the output buffer and
the cursor, the latches, raising an error (60_exceptions.md R109) and responding (10_state.md R23, R29(c)). -/

namespace Sys2Proof.Machine

/-- The outcome of one step of an instance. -/
abbrev StepOutcome := Host.Outcome State Fault Refusal

/-- The phase (10_state.md R16). -/
def State.phase (s : State) : Phase :=
  match s.op with
  | .idle => .idle
  | .enc _ => .busyEnc
  | .dec _ => .busyDec

/-- Write the phase and working state. -/
def State.setOp (o : Operation) (s : State) : State := { s with op := o }

/-- Latch a record's four elements (40_encoder.md R67). -/
def State.latchRecord (t a b c : Nat) (s : State) : State :=
  { s with latches := { s.latches with t := t, a := a, b := b, c := c } }

/-- Latch the operand count, a 4-bit latch (10_state.md R20). -/
def State.latchCount (n : Nat) (s : State) : State :=
  { s with latches := { s.latches with n := BitVec.ofNat 4 n } }

/-- Latch a header word. -/
def State.latchHeader (h : Word) (s : State) : State :=
  { s with latches := { s.latches with hdr := h } }

/-- Latch a header's opcode. -/
def State.latchOpcode (t : Opcode) (s : State) : State :=
  { s with latches := { s.latches with t := t.toNat } }

/-- A step boundary: the latches are undefined between steps (10_state.md R20), so each takes a fresh free value
(93_implementation_defined.md U20; log 3). -/
def State.endStep (s : State) : State :=
  { s with latches := Config.freeLatches s.fresh, fresh := s.fresh + 1 }

/-- `MemWrite(Out, v)` of the encoder (00_scope.md R10, 20_memory.md R35). -/
def EncWork.memWrite (v : Word) (w : EncWork) : EncWork := { w with out := w.out ++ [v] }

/-- The encoder's cursor write. -/
def EncWork.advance (d : Nat) (w : EncWork) : EncWork := { w with i := w.i + d }

/-- `MemWrite(Out, v)` of the decoder. -/
def DecWork.memWrite (v : Word) (w : DecWork) : DecWork := { w with out := w.out ++ [v] }

/-- The decoder's cursor write. -/
def DecWork.advance (d : Nat) (w : DecWork) : DecWork := { w with j := w.j + d }

/-- Consume one operand word: append it unchanged and move the cursor by one position (41_decoder.md R83 step 4 as
90_conflicts.md C3 reads it; 30_encoding.md R53). -/
def DecWork.copyOperand (w : DecWork) (v : Word) : DecWork := (w.memWrite v).advance 1

/-- Copy the `n` operand words at the cursor, one after another. -/
def DecWork.copyOperands (n : Nat) (w : DecWork) : DecWork :=
  (operandWords w.input w.j n).foldl DecWork.copyOperand w

/-- `raise E(info)` on the working state (60_exceptions.md R109): `st` becomes FAULT with the kind's code, and `Out` is
discarded: what stands there afterwards is `gone`. -/
def Operation.raise (e : ErrorInfo) (gone : List Word) : Operation → Operation
  | .idle => .idle
  | .enc w => .enc { w with st := .fault e.code e, out := gone }
  | .dec w => .dec { w with st := .fault e.code e, out := gone }

/-- Taking an error: the one shared operation of every check that raises (R109). The discarded `Out` holds any value
(93_implementation_defined.md U20; log 7). -/
def State.raise (e : ErrorInfo) (s : State) : State := s.setOp (s.op.raise e (Config.freeOut s.fresh))

/-- The response the operation in progress is ready to deliver. -/
def Operation.response : Operation → Option Response
  | .idle => none
  | .enc w => w.st.response w.out
  | .dec w => w.st.response w.out

/-- Deliver a response, return to IDLE and discard the working state (10_state.md R23, 60_exceptions.md R120). -/
def State.deliver (r : Response) (s : State) : State :=
  { s with op := .idle, responses := s.responses ++ [r] }

/-- The return from an operation: the response step (10_state.md R29(c)). With nothing to deliver there is no such
step. -/
def State.respond (s : State) : StepOutcome :=
  match s.op.response with
  | some r => .next (s.deliver r).endStep
  | none => .fault .noRecordStep

/-- Accept a request of `len` elements: an over-long one has no step (60_exceptions.md R116; the port does not take it in
the first place, log 5), any other starts its operation. -/
def State.acceptWith (s : State) (len : Nat) (start : State) : StepOutcome :=
  if s.params.admits len then .next start.endStep else .refused (.overLongRequest len)

end Sys2Proof.Machine
end

