-- ==== Sys2Proof/Machine/Decoder.lean ====
section
/-! DEFINITION. The DECODE command (41_decoder.md R82, R83, R91) and the header classes (R84 to R88), with the operand
word (30_encoding.md R53). -/

namespace Sys2Proof.Machine

/-- Run a header or operand word where a header step is due: `phase = BUSY_DEC`, `st = RUN`, `j < len(In)` (R83). -/
def onHeaderStep (body : DecWork → StepOutcome) (s : State) : StepOutcome :=
  match s.op with
  | .idle => .fault .noRecordStep
  | .enc _ => .fault .noRecordStep
  | .dec w =>
    match w.st with
    | .run => if w.j < w.input.length then body w else .fault .noRecordStep
    | .done => .fault .noRecordStep
    | .fault _ _ => .fault .noRecordStep

/-- The writing half of a header step, over the latches: the zero-extended opcode, then the `n` operand words one by
one; the cursor moves by `1 + n` in all (R83 to R87). -/
def decEmit (w : DecWork) (s : State) : State :=
  let opened := (w.memWrite (zext16 (BitVec.ofNat 8 s.latches.t))).advance 1
  s.setOp (.dec (opened.copyOperands s.latches.n.toNat))

/-- One header with its fields latched: the checks in their order, then the writes (R83, R88 to R90). -/
def headerStep (h : Word) (t : Opcode) (n : Nat) (w : DecWork) (s : State) : StepOutcome :=
  let s1 := ((s.latchHeader h).latchOpcode t).latchCount n
  match headerError w.j s1.latches.n.toNat w.input.length with
  | some e => .next (s1.raise e).endStep
  | none => .next (decEmit w s1).endStep

/-- DEC_REC (R83): the header at the cursor, its fields taken by position, `hdr[15:12]` not read. -/
def decRec (w : DecWork) (s : State) : StepOutcome :=
  match memRead w.input w.j with
  | none => .fault .readPastEnd
  | some h => headerStep h (hdrType h) (hdrCnt h).toNat w s

/-- DECODE acceptance (R82): no check but the length limit. -/
def decAccept (stream : List Word) (s : State) : StepOutcome :=
  s.acceptWith stream.length (s.setOp (.dec ⟨stream, 0, [], .run⟩))

/-- DEC_END (R91). -/
def decEnd (w : DecWork) (s : State) : StepOutcome :=
  .next (s.setOp (.dec { w with st := .done })).endStep

/-- DECODE: on an IDLE instance its acceptance; on an instance that is performing it, its next step (10_state.md R29):
a header step, the end step, or the response. Another request has no step on a busy instance (10_state.md R30;
log 12). The arm carries the whole operation (DEDUCED, log 1). -/
def execDecode (stream : List Word) (s : State) : StepOutcome :=
  match s.op with
  | .idle => decAccept stream s
  | .enc _ => .refused .heldWhileBusy
  | .dec w =>
    if w.input = stream then
      match w.st with
      | .run =>
        if w.j < w.input.length then decRec w s
        else if w.j = w.input.length then decEnd w s
        else .fault .readPastEnd
      | .done => s.respond
      | .fault _ _ => s.respond
    else .refused .heldWhileBusy

/-- A header of the class with count `n`, its fields given by the instruction (DEDUCED, log 19). -/
def execHeader (n : Nat) (rsv : Rsv) (t : Opcode) (s : State) : StepOutcome :=
  onHeaderStep (fun w => headerStep (makeHeader rsv (BitVec.ofNat 4 n) t) t n w s) s

/-- H0 (R84): the opcode only; it cannot be truncated. -/
def execH0 (rsv : Rsv) (t : Opcode) (s : State) : StepOutcome := execHeader 0 rsv t s

/-- H1 (R85): the opcode and one operand word. -/
def execH1 (rsv : Rsv) (t : Opcode) (s : State) : StepOutcome := execHeader 1 rsv t s

/-- H2 (R86): the opcode and two operand words. -/
def execH2 (rsv : Rsv) (t : Opcode) (s : State) : StepOutcome := execHeader 2 rsv t s

/-- H3 (R87): the opcode and three operand words. -/
def execH3 (rsv : Rsv) (t : Opcode) (s : State) : StepOutcome := execHeader 3 rsv t s

/-- The illegal classes (R88): each raises CorruptStream with its own count. -/
def execIllegalCnt4 (rsv : Rsv) (t : Opcode) (s : State) : StepOutcome := execHeader 4 rsv t s

/-- R88, count 5. -/
def execIllegalCnt5 (rsv : Rsv) (t : Opcode) (s : State) : StepOutcome := execHeader 5 rsv t s

/-- R88, count 6. -/
def execIllegalCnt6 (rsv : Rsv) (t : Opcode) (s : State) : StepOutcome := execHeader 6 rsv t s

/-- R88, count 7. -/
def execIllegalCnt7 (rsv : Rsv) (t : Opcode) (s : State) : StepOutcome := execHeader 7 rsv t s

/-- R88, count 8. -/
def execIllegalCnt8 (rsv : Rsv) (t : Opcode) (s : State) : StepOutcome := execHeader 8 rsv t s

/-- R88, count 9. -/
def execIllegalCnt9 (rsv : Rsv) (t : Opcode) (s : State) : StepOutcome := execHeader 9 rsv t s

/-- R88, count 10. -/
def execIllegalCnt10 (rsv : Rsv) (t : Opcode) (s : State) : StepOutcome := execHeader 10 rsv t s

/-- R88, count 11. -/
def execIllegalCnt11 (rsv : Rsv) (t : Opcode) (s : State) : StepOutcome := execHeader 11 rsv t s

/-- R88, count 12. -/
def execIllegalCnt12 (rsv : Rsv) (t : Opcode) (s : State) : StepOutcome := execHeader 12 rsv t s

/-- R88, count 13. -/
def execIllegalCnt13 (rsv : Rsv) (t : Opcode) (s : State) : StepOutcome := execHeader 13 rsv t s

/-- R88, count 14. -/
def execIllegalCnt14 (rsv : Rsv) (t : Opcode) (s : State) : StepOutcome := execHeader 14 rsv t s

/-- R88, count 15. -/
def execIllegalCnt15 (rsv : Rsv) (t : Opcode) (s : State) : StepOutcome := execHeader 15 rsv t s

/-- OPERAND_WORD (30_encoding.md R53): the copy of one operand word, the share of a header step that one word has
(90_conflicts.md C3; log 10). No value of the word is looked at. -/
def execOperandWord (v : Word) (s : State) : StepOutcome :=
  onHeaderStep (fun w => .next (s.setOp (.dec (w.copyOperand v))).endStep) s

end Sys2Proof.Machine
end

