-- ==== Sys2Proof/Machine/Encoder.lean ====
section
/-! DEFINITION. The ENCODE command, step by step (40_encoder.md R66 to R74). -/

namespace Sys2Proof.Machine

/-- Acceptance and precheck (R66): a ragged program raises before any record is looked at. -/
def encAccept (p : List Nat) (s : State) : StepOutcome :=
  let started := s.setOp (.enc ⟨p, 0, [], .run⟩)
  s.acceptWith p.length
    (if raggedLength p.length then started.raise (.raggedProgram p.length) else started)

/-- The emitting half of a record step, over the latched record: count, header, operands, cursor (R70 to R72). -/
def encEmit (w : EncWork) (s : State) : State :=
  let l := s.latches
  let s1 := s.latchCount (operandCount l.a l.b l.c)
  let s2 := s1.latchHeader (formHeader l.t s1.latches.n.toNat)
  let units := s2.latches.hdr :: (selectOperands s2.latches.n.toNat l.a l.b l.c).map operandUnit
  s2.setOp (.enc ((units.foldl (fun v u => EncWork.memWrite u v) w).advance Config.recordArity))

/-- ENC_REC, one record step (R67): latch the record, check it, emit it. -/
def encRec (w : EncWork) (s : State) : StepOutcome :=
  match readRecord w.input w.i with
  | none => .fault .readPastEnd
  | some (t, a, b, c) =>
    let s1 := s.latchRecord t a b c
    match recordError (w.i / Config.recordArity) s1.latches.t s1.latches.a s1.latches.b s1.latches.c with
    | some e => .next (s1.raise e).endStep
    | none => .next (encEmit w s1).endStep

/-- ENC_END (R73). -/
def encEnd (w : EncWork) (s : State) : StepOutcome :=
  .next (s.setOp (.enc { w with st := .done })).endStep

/-- ENCODE: on an IDLE instance its acceptance; on an instance that is performing it, its next step (10_state.md R29):
a record step, the end step, or the response. Another request has no step on a busy instance (10_state.md R30;
log 12). The arm carries the whole operation (DEDUCED, log 1). -/
def execEncode (p : List Nat) (s : State) : StepOutcome :=
  match s.op with
  | .idle => encAccept p s
  | .dec _ => .refused .heldWhileBusy
  | .enc w =>
    if w.input = p then
      match w.st with
      | .run =>
        if w.i < w.input.length then encRec w s
        else if w.i = w.input.length then encEnd w s
        else .fault .readPastEnd
      | .done => s.respond
      | .fault _ _ => s.respond
    else .refused .heldWhileBusy

end Sys2Proof.Machine
end

