-- ==== Sys2Proof/Machine/Dispatch.lean ====
section
/-! DEFINITION. One arm per instruction. -/

namespace Sys2Proof.Machine

def exec (i : Instr) (s : State) : Host.Outcome State Fault Refusal :=
  match i with
  | .encode p => Sys2Proof.Machine.execEncode p s
  | .decode u => Sys2Proof.Machine.execDecode u s
  | .h0 rsv t => Sys2Proof.Machine.execH0 rsv t s
  | .h1 rsv t => Sys2Proof.Machine.execH1 rsv t s
  | .h2 rsv t => Sys2Proof.Machine.execH2 rsv t s
  | .h3 rsv t => Sys2Proof.Machine.execH3 rsv t s
  | .illegalCnt4 rsv t => Sys2Proof.Machine.execIllegalCnt4 rsv t s
  | .illegalCnt5 rsv t => Sys2Proof.Machine.execIllegalCnt5 rsv t s
  | .illegalCnt6 rsv t => Sys2Proof.Machine.execIllegalCnt6 rsv t s
  | .illegalCnt7 rsv t => Sys2Proof.Machine.execIllegalCnt7 rsv t s
  | .illegalCnt8 rsv t => Sys2Proof.Machine.execIllegalCnt8 rsv t s
  | .illegalCnt9 rsv t => Sys2Proof.Machine.execIllegalCnt9 rsv t s
  | .illegalCnt10 rsv t => Sys2Proof.Machine.execIllegalCnt10 rsv t s
  | .illegalCnt11 rsv t => Sys2Proof.Machine.execIllegalCnt11 rsv t s
  | .illegalCnt12 rsv t => Sys2Proof.Machine.execIllegalCnt12 rsv t s
  | .illegalCnt13 rsv t => Sys2Proof.Machine.execIllegalCnt13 rsv t s
  | .illegalCnt14 rsv t => Sys2Proof.Machine.execIllegalCnt14 rsv t s
  | .illegalCnt15 rsv t => Sys2Proof.Machine.execIllegalCnt15 rsv t s
  | .operandWord v => Sys2Proof.Machine.execOperandWord v s

end Sys2Proof.Machine
end

