-- ==== Sys2Proof/Machine/Fetch.lean ====
section
/-! DEFINITION. What the next step of an instance serves (10_state.md R29), and what the fetch takes from the ports. -/

namespace Sys2Proof.Machine

/-- What the next step serves. IDLE: the oldest request offered, none if there is none (R29(a)). Busy: the header at
the cursor when a header step is due (R29(b), 41_decoder.md R83), else the request in progress, whose next step it is. -/
def fetch (s : State) : Option Fetched :=
  match s.op with
  | .idle => s.offered.head?.map Fetched.request
  | .enc w => some (encode (.encode w.input))
  | .dec w =>
    match w.st with
    | .run =>
      match memRead w.input w.j with
      | some h => some (.header h)
      | none => some (encode (.decode w.input))
    | .done => some (encode (.decode w.input))
    | .fault _ _ => some (encode (.decode w.input))

/-- The state the fetched instruction runs in: accepting a request takes it from the request port. -/
def afterFetch (s : State) : State :=
  match s.op with
  | .idle => { s with offered := s.offered.tail }
  | .enc _ => s
  | .dec _ => s

/-- The refusal of a fetched item that the decoder refuses. -/
def rejectRefusal : Reject → Refusal
  | .payloadNotUnits => .payloadNotUnits

/-- The state whose next step serves a word of the opcode table: a command word is a request at the head of the request
port of an IDLE instance, a header word is the first unit of a DECODE in progress, three units of zeros after it. -/
def placeTableWord (nbits w : Nat) (s : State) : State :=
  match tableFetched nbits w with
  | .request r => { s with op := .idle, offered := r :: s.offered }
  | .header h => { s with op := .dec ⟨[h, 0, 0, 0], 0, [], .run⟩ }
  | .operand v => { s with op := .dec ⟨[v, 0, 0, 0], 0, [], .run⟩ }

end Sys2Proof.Machine
end

