-- ==== Sys2Proof/Machine/Step.lean ====
section
/-! DEFINITION. One step of an instance (10_state.md R29): fetch, decode, execute. -/

namespace Sys2Proof.Machine

/-- An IDLE instance with no request offered waits (log 2). -/
def step (s : State) : Host.Outcome State Fault Refusal :=
  match fetch s with
  | none => .next s
  | some f =>
    match decode f with
    | .ok i => exec i (afterFetch s)
    | .error e => .refused (rejectRefusal e)

/-- `s` with a word of the opcode table stored where the next step fetches (log 11). -/
def State.withFetchWord (s : State) (nbits w : Nat) : State := placeTableWord nbits w s

end Sys2Proof.Machine
end

