-- ==== Sys2Proof/Machine/HostMoves.lean ====
section
/-! DEFINITION. What the host and the outside can do to an instance (10_state.md R13): offer a request, and reset. There
is no move that changes an accepted payload (70_reset_and_hazards.md R132), and none that cancels (60_exceptions.md
R123). -/

namespace Sys2Proof.Machine

/-- Take a request into the port, behind those already held (10_state.md R14, R30; 20_memory.md R44). -/
def State.enqueue (r : Request) (s : State) : State := { s with offered := s.offered ++ [r] }

/-- Offer a request at the request port, to an IDLE or to a busy instance. The port refuses a request outside its
domain (10_state.md R14; DEDUCED, log 6) and one longer than `MaxInputLen` (60_exceptions.md R116, refused when it is
offered: DEDUCED, log 5): such an offer has no next state, so the request is never held and never stands before
another. Every other request is held until it is accepted (R30). -/
def State.offer (r : Request) (s : State) : StepOutcome :=
  if r.wf = false then .refused .payloadNotUnits
  else if s.params.admits r.payload.length = false then .refused (.overLongRequest r.payload.length)
  else .next (s.enqueue r)

/-- A reset event at any time (70_reset_and_hazards.md R127, R128): IDLE, the operation in flight abandoned with no
response. DEDUCED as a move of the outside (log 16). Requests the host still offers stay offered (DESIGN CHOICE,
log 8); responses already delivered stay the host's. -/
def State.resetEvent (s : State) : State := (s.setOp .idle).endStep

/-- What can happen to an instance next. -/
inductive Event where
  | stepOnce
  | offer (r : Request)
  | resetLine
deriving DecidableEq, Repr

/-- One event. -/
def applyEvent (e : Event) (s : State) : StepOutcome :=
  match e with
  | .stepOnce => step s
  | .offer r => s.offer r
  | .resetLine => .next s.resetEvent

/-- A sequence of events, oldest first; an event that has no next state, a refused offer among them, leaves the instance
where it is (log 15). -/
def runEvents : List Event → State → State
  | [], s => s
  | e :: rest, s =>
    match applyEvent e s with
    | .next s' => runEvents rest s'
    | .fault _ => runEvents rest s
    | .refused _ => runEvents rest s

/-- `k` steps of the instance. -/
def runSteps : Nat → State → StepOutcome
  | 0, s => .next s
  | k + 1, s =>
    match step s with
    | .next s' => runSteps k s'
    | .fault f => .fault f
    | .refused r => .refused r

/-- The states an instance can be in, whatever its parameters and whatever the host does. -/
inductive Reachable : State → Prop where
  | reset (ps : Params) : Reachable (State.resetWith ps)
  | event {s s' : State} (e : Event) : Reachable s → applyEvent e s = .next s' → Reachable s'

end Sys2Proof.Machine
end

