-- ==== Sys2Proof/Machine/Transaction.lean ====
section
/-! DEFINITION. The transaction view of the two commands: one function from the payload to the response
(40_encoder.md R65, 41_decoder.md R81). The step view does not use it; statements hold the two together. -/

namespace Sys2Proof.Machine

/-- The units of one validated record (30_encoding.md R56): its header, then its first `n` operands. -/
def recordUnits (t a b c : Nat) : List Word :=
  formHeader t (operandCount a b c) :: (selectOperands (operandCount a b c) a b c).map operandUnit

/-- The records of a program from record number `k` on, in order (R65). The last pattern is a rest of one to three
elements, which R66 keeps from arising. -/
def encodeRecords : Nat → List Nat → Except ErrorInfo (List Word)
  | _, [] => .ok []
  | k, t :: a :: b :: c :: rest =>
    match recordError k t a b c with
    | some e => .error e
    | none =>
      match encodeRecords (k + 1) rest with
      | .error e => .error e
      | .ok units => .ok (recordUnits t a b c ++ units)
  | _, rest => .error (.raggedProgram rest.length)

/-- ENCODE(P) without the length limit (R65). -/
def encodeCommand (p : List Nat) : Except ErrorInfo (List Word) :=
  if raggedLength p.length then .error (.raggedProgram p.length) else encodeRecords 0 p

/-- The headers of a stream from position `j` on, in order (R81). `skip` counts the operand words of the last header
that are still to be copied; `len` is the whole stream's length. -/
def decodeUnits (len : Nat) : Nat → Nat → List Word → Except ErrorInfo (List Word)
  | _, _, [] => .ok []
  | j, skip + 1, v :: rest =>
    match decodeUnits len (j + 1) skip rest with
    | .error e => .error e
    | .ok units => .ok (v :: units)
  | j, 0, h :: rest =>
    match headerError j (hdrCnt h).toNat len with
    | some e => .error e
    | none =>
      match decodeUnits len (j + 1) (hdrCnt h).toNat rest with
      | .error e => .error e
      | .ok units => .ok (zext16 (hdrType h) :: units)

/-- DECODE(S) without the length limit (R81). -/
def decodeCommand (stream : List Word) : Except ErrorInfo (List Word) :=
  decodeUnits stream.length 0 0 stream

/-- The response of a finished operation (10_state.md R15, 60_exceptions.md R108). -/
def resultResponse : Except ErrorInfo (List Word) → Response
  | .ok units => .ok units
  | .error e => .err e.code e

/-- The decoded stream that goes with a program: per record the opcode and the first `n` operands
(41_decoder.md R94). -/
def packedRecords : List Nat → List Word
  | t :: a :: b :: c :: rest =>
    BitVec.ofNat 16 t :: (selectOperands (operandCount a b c) a b c).map operandUnit ++ packedRecords rest
  | _ => []

/-- The records of a program (30_encoding.md R49). -/
def recordsOf : List Nat → List (Nat × Nat × Nat × Nat)
  | t :: a :: b :: c :: rest => (t, a, b, c) :: recordsOf rest
  | _ => []

/-- The error of a program's record as the error of the same record `r` places further on (40_encoder.md R80). -/
def shiftRecord (r : Nat) : ErrorInfo → ErrorInfo
  | .opcodeTooLarge v k => .opcodeTooLarge v (k + r)
  | .operandTooLarge v k slot => .operandTooLarge v (k + r) slot
  | .truncatedStream p n m => .truncatedStream p n m
  | .corruptStream p n => .corruptStream p n
  | .raggedProgram l => .raggedProgram l
  | .oddLengthArtifact l => .oddLengthArtifact l

/-- The response to a request by the transaction view, none for a request the port refuses (60_exceptions.md R116). -/
def requestResponse (ps : Params) (r : Request) : Option Response :=
  if ps.admits r.payload.length then
    match decode (.request r) with
    | .ok (.encode p) => some (resultResponse (encodeCommand p))
    | .ok (.decode s) => some (resultResponse (decodeCommand s))
    | .ok _ => none
    | .error _ => none
  else none

end Sys2Proof.Machine
end

