-- ==== Sys2Proof/Machine/Adapters.lean ====
section
/-! DEFINITION. The carriers of an encoded stream and the adapters between them and the request port
(42_representation.md). They are functions on the host's side, not commands of the block. -/

namespace Sys2Proof.Machine

/-- A string-like container: a sequence of 16-bit character values, every value legal (R98; log 17). -/
structure Text where
  chars : List Word
deriving DecidableEq, Repr

/-- A raw fixed-width buffer of 16-bit elements (R99). -/
structure RawBuffer where
  elems : List Word
deriving DecidableEq, Repr

/-- R98. -/
def toText (e : List Word) : Text := ⟨e⟩

/-- R98. -/
def fromText (x : Text) : List Word := x.chars

/-- R99; also the encoder's variant that returns the raw buffer (D26). -/
def toBuffer (e : List Word) : RawBuffer := ⟨e⟩

/-- R99. -/
def fromBuffer (b : RawBuffer) : List Word := b.elems

/-- Bits 7..0 of a unit. -/
def lowByte (u : Word) : Byte := u.extractLsb' 0 8

/-- Bits 15..8 of a unit. -/
def highByte (u : Word) : Byte := u.extractLsb' 8 8

/-- The two bytes of a unit in the order given (R100). -/
def unitBytes (o : ByteOrder) (u : Word) : List Byte :=
  match o with
  | .little => [lowByte u, highByte u]
  | .big => [highByte u, lowByte u]

/-- The unit of two bytes in the order given (R101). -/
def bytesUnit (o : ByteOrder) (first second : Byte) : Word :=
  match o with
  | .little => second ++ first
  | .big => first ++ second

/-- Byte serialization (R100). -/
def toBytes (e : List Word) (o : ByteOrder) : List Byte := e.flatMap (unitBytes o)

/-- The units of an even number of bytes (R101). -/
def pairBytes (o : ByteOrder) : List Byte → List Word
  | x :: y :: rest => bytesUnit o x y :: pairBytes o rest
  | _ => []

/-- Byte deserialization (R101, 60_exceptions.md R115). -/
def fromBytes (y : List Byte) (o : ByteOrder) : Except ErrorInfo (List Word) :=
  if y.length % 2 = 1 then .error (.oddLengthArtifact y.length) else .ok (pairBytes o y)

/-- What a DECODE request may be made from (R102). -/
inductive Carrier where
  | text (x : Text)
  | buffer (b : RawBuffer)
  | bytes (y : List Byte) (o : ByteOrder)
deriving DecidableEq, Repr

/-- The units a carrier holds. -/
def Carrier.units : Carrier → Except ErrorInfo (List Word)
  | .text x => .ok (fromText x)
  | .buffer b => .ok (fromBuffer b)
  | .bytes y o => fromBytes y o

/-- The DECODE request for a carrier; an adapter error means that none is issued (R102). -/
def Carrier.request (c : Carrier) : Except ErrorInfo Request :=
  match c.units with
  | .ok e => .ok ⟨1, e.map BitVec.toNat⟩
  | .error e => .error e

/-- The ENCODE request for a program (10_state.md R14). -/
def programRequest (p : List Nat) : Request := ⟨0, p⟩

/-- The least width of a concrete input port: the values 256 and 65536 can be presented (20_memory.md R34, D4). -/
def minInWidth : Nat := 17

/-- The default width of a concrete input port (D4). -/
def defaultInWidth : Nat := 32

/-- A program a concrete input port of `inWidth` bits can present, zero-extended (20_memory.md R34, D4). -/
def presentable (inWidth : Nat) (p : List Nat) : Bool := p.all (fun v => decide (v < 2 ^ inWidth))

end Sys2Proof.Machine
end

