-- ==== Sys2Proof/Machine/Listing.lean ====
section
/-! DEFINITION. The written form of programs and streams that the spec uses (30_encoding.md R64). It is no part of the
block. -/

namespace Sys2Proof.Machine

/-- `rec t, a, b, c`: one input record. -/
structure ProgramLine where
  t : Nat
  a : Nat
  b : Nat
  c : Nat
deriving DecidableEq, Repr

/-- The flat form of a program: the concatenation of its records. -/
def flatProgram (lines : List ProgramLine) : List Nat := lines.flatMap (fun l => [l.t, l.a, l.b, l.c])

/-- One line of a stream listing. -/
inductive StreamLine where
  /-- `H<n> t`, a header with rsv 0. -/
  | hdr (n : Count) (t : Opcode)
  /-- `H<n>.r<k> t`, the same with `rsv = k`. -/
  | hdrRsv (n : Count) (k : Rsv) (t : Opcode)
  /-- `.w v`, an operand word. -/
  | word (v : Word)
  /-- `.bad<n> t`, an illegal header. -/
  | bad (n : Count) (t : Opcode)
deriving DecidableEq, Repr

/-- The unit of a line. For a header the rule spells the unit out; for `.bad<n> t` it gives the count and the opcode only,
and that its `rsv` is 0 is the model's: DESIGN CHOICE (log 20). -/
def StreamLine.unit : StreamLine → Word
  | .hdr n t => makeHeader 0 n t
  | .hdrRsv n k t => makeHeader k n t
  | .word v => v
  | .bad n t => makeHeader 0 n t

/-- A line is legal where the notation allows it: `n` in 0..3 for headers, 4..15 for illegal ones. -/
def StreamLine.legal : StreamLine → Bool
  | .hdr n _ => decide (n.toNat ≤ 3)
  | .hdrRsv n _ _ => decide (n.toNat ≤ 3)
  | .word _ => true
  | .bad n _ => decide (4 ≤ n.toNat)

/-- The stream of a listing. -/
def streamOf (lines : List StreamLine) : List Word := lines.map StreamLine.unit

end Sys2Proof.Machine
end

