-- ==== Sys2Proof/Machine/Platform.lean ====
section
/-! DEFINITION. Several instances (60_exceptions.md R125): any number of them, sharing no state, their events in any
interleaving (20_memory.md R43). -/

namespace Sys2Proof.Machine

/-- The instances of a platform, `NumInstances` of them. -/
structure Platform where
  instances : List State
deriving DecidableEq, Repr

/-- There is at least one instance (`NumInstances >= 1`, R125); no other rule depends on their number. -/
def Platform.wf (p : Platform) : Bool := decide (1 ≤ p.instances.length)

/-- `n` instances with the given parameters right after reset: each is IDLE (R125, 70_reset_and_hazards.md R127). -/
def Platform.reset (n : Nat) (ps : Params) : Platform := ⟨List.replicate n (State.resetWith ps)⟩

/-- An event of instance `k`; an event of an instance that does not exist changes nothing. -/
def Platform.apply (k : Nat) (e : Event) (p : Platform) : Platform :=
  match p.instances[k]? with
  | none => p
  | some s => ⟨p.instances.set k (runEvents [e] s)⟩

/-- A schedule: which instance has which event, oldest first. -/
def Platform.run : List (Nat × Event) → Platform → Platform
  | [], p => p
  | (k, e) :: rest, p => Platform.run rest (p.apply k e)

/-- The events of one instance in a schedule. -/
def eventsOf (k : Nat) (schedule : List (Nat × Event)) : List Event :=
  (schedule.filter (fun ke => ke.1 == k)).map Prod.snd

end Sys2Proof.Machine
end

