-- ==== Sys2Proof/Safety.lean ====
section
/-! DEFINITION. What holds of an instance at every step boundary, in the terms the statements use. -/

namespace Sys2Proof.Machine

/-- The encoder's working state is one that its operation passes through: the cursor is a multiple of 4 within the
input (10_state.md R21, R22), and `Out` and `st` are those of the records before the cursor. -/
def EncWork.Sound (w : EncWork) : Prop :=
  w.i % 4 = 0 ∧ w.i ≤ w.input.length ∧
  match w.st with
  | .run => w.input.length % 4 = 0 ∧ encodeCommand (w.input.take w.i) = .ok w.out
  | .done => w.i = w.input.length ∧ encodeCommand w.input = .ok w.out
  | .fault code info => code = info.code ∧ encodeCommand w.input = .error info

/-- The decoder's working state is one that its operation passes through: the cursor is a header position or the end
of the input, and `Out` and `st` are those of the headers before the cursor. -/
def DecWork.Sound (w : DecWork) : Prop :=
  w.j ≤ w.input.length ∧
  match w.st with
  | .run => decodeCommand (w.input.take w.j) = .ok w.out
  | .done => w.j = w.input.length ∧ decodeCommand w.input = .ok w.out
  | .fault code info => code = info.code ∧ decodeCommand w.input = .error info

/-- The operation in progress was admitted and its working state is sound. -/
def State.OperationSound (s : State) : Prop :=
  match s.op with
  | .idle => True
  | .enc w => s.params.admits w.input.length = true ∧ w.Sound
  | .dec w => s.params.admits w.input.length = true ∧ w.Sound

/-- Every request held at the port is one that the port takes (10_state.md R14, 60_exceptions.md R116). -/
def State.PortAdmitted (s : State) : Prop :=
  ∀ r ∈ s.offered, r.wf = true ∧ s.params.admits r.payload.length = true

/-- The invariant of an instance. -/
def State.Inv (s : State) : Prop := s.OperationSound ∧ s.PortAdmitted

/-- The head request, if any, is one the instance accepts. -/
def State.HeadAcceptable (s : State) : Prop :=
  ∀ r, s.offered.head? = some r → r.wf = true ∧ s.params.admits r.payload.length = true

/-- The header positions of a stream: index 0, and after a header the position past its operand words
(30_encoding.md R57, 41_decoder.md R93). -/
inductive HeaderPosition (stream : List Word) : Nat → Prop where
  | first : HeaderPosition stream 0
  | following {p : Nat} {h : Word} :
      HeaderPosition stream p → stream[p]? = some h → HeaderPosition stream (p + 1 + (hdrCnt h).toNat)

end Sys2Proof.Machine
end

