-- ==== Sys2Proof/Certificates/Slice0/Obligations.lean ====
section
/-! DEFINITION. The statements for the provers. In a result, `endStep` is the step boundary: it gives every latch a
fresh free value and changes nothing else, so no statement rests on a latch's value between steps (log 3). A discarded
`Out` is the free value `Config.freeOut s.fresh`, of which nothing can be proved (log 7). -/

open Sys2Proof Sys2Proof.Machine

/-! ## Encoding and decoding of instructions -/

/-- Decoding the encoding of any instruction gives it back, every operand at every value. -/
def Obligations.DecodeEncodeIsIdentity : Prop :=
  ∀ i : Instr, decode (encode i) = .ok i

/-- Whatever decodes is the encoding of what it decodes to: no two requests or units have one meaning. -/
def Obligations.EncodeDecodeIsIdentity : Prop :=
  ∀ (f : Fetched) (i : Instr), decode f = .ok i → encode i = f

/-- The decoder refuses a DECODE request with an element that is no 16-bit unit, and nothing else (10_state.md R14). -/
def Obligations.DecoderRefusesOnlyNonUnitPayloads : Prop :=
  ∀ f : Fetched, decode f = .error .payloadNotUnits ↔
    ∃ r : Request, f = .request r ∧ r.cmd = 1 ∧ ∃ v ∈ r.payload, 65536 ≤ v

/-- R52: the fields by the masks of the rule, their ranges, and no dependence on bits 15..12. -/
def Obligations.HeaderFieldsByMask : Prop :=
  ∀ h : Word,
    (hdrType h).toNat = h.toNat &&& 0xFF ∧ (hdrCnt h).toNat = (h.toNat &&& 0x0F00) >>> 8 ∧
    (hdrType h).toNat ≤ 255 ∧ (hdrCnt h).toNat ≤ 15 ∧
    ∀ h' : Word, h'.toNat &&& 0x0FFF = h.toNat &&& 0x0FFF → hdrType h' = hdrType h ∧ hdrCnt h' = hdrCnt h

/-- The header that the encoder forms, by the spec's own inference R51 (from R68 and R70). -/
def Obligations.FormedHeaderFields : Prop :=
  ∀ t n : Nat, t ≤ 255 → n ≤ 3 →
    (formHeader t n).toNat = t ||| (n <<< 8) ∧
    ((formHeader t n).extractLsb' 0 8).toNat = t ∧ ((formHeader t n).extractLsb' 8 2).toNat = n ∧
    (formHeader t n).extractLsb' 10 2 = 0 ∧ (formHeader t n).extractLsb' 12 4 = 0 ∧
    (formHeader t n).toNat ≤ 0x03FF ∧ t &&& (n <<< 8) = 0

/-- R59: the class of a header is the one whose match its count bits are, for every opcode and every `rsv`. -/
def Obligations.HeaderClassByCount : Prop :=
  ∀ h : Word,
    (h &&& 0x0F00 = 0x0000 → decodeHeader h = .h0 (hdrRsv h) (hdrType h)) ∧
    (h &&& 0x0F00 = 0x0100 → decodeHeader h = .h1 (hdrRsv h) (hdrType h)) ∧
    (h &&& 0x0F00 = 0x0200 → decodeHeader h = .h2 (hdrRsv h) (hdrType h)) ∧
    (h &&& 0x0F00 = 0x0300 → decodeHeader h = .h3 (hdrRsv h) (hdrType h)) ∧
    (h &&& 0x0F00 = 0x0400 → decodeHeader h = .illegalCnt4 (hdrRsv h) (hdrType h)) ∧
    (h &&& 0x0F00 = 0x0500 → decodeHeader h = .illegalCnt5 (hdrRsv h) (hdrType h)) ∧
    (h &&& 0x0F00 = 0x0600 → decodeHeader h = .illegalCnt6 (hdrRsv h) (hdrType h)) ∧
    (h &&& 0x0F00 = 0x0700 → decodeHeader h = .illegalCnt7 (hdrRsv h) (hdrType h)) ∧
    (h &&& 0x0F00 = 0x0800 → decodeHeader h = .illegalCnt8 (hdrRsv h) (hdrType h)) ∧
    (h &&& 0x0F00 = 0x0900 → decodeHeader h = .illegalCnt9 (hdrRsv h) (hdrType h)) ∧
    (h &&& 0x0F00 = 0x0A00 → decodeHeader h = .illegalCnt10 (hdrRsv h) (hdrType h)) ∧
    (h &&& 0x0F00 = 0x0B00 → decodeHeader h = .illegalCnt11 (hdrRsv h) (hdrType h)) ∧
    (h &&& 0x0F00 = 0x0C00 → decodeHeader h = .illegalCnt12 (hdrRsv h) (hdrType h)) ∧
    (h &&& 0x0F00 = 0x0D00 → decodeHeader h = .illegalCnt13 (hdrRsv h) (hdrType h)) ∧
    (h &&& 0x0F00 = 0x0E00 → decodeHeader h = .illegalCnt14 (hdrRsv h) (hdrType h)) ∧
    (h &&& 0x0F00 = 0x0F00 → decodeHeader h = .illegalCnt15 (hdrRsv h) (hdrType h))

/-- Words written out from the header layout (R50), the command bit (10_state.md R14) and the operand word (R53). -/
def Obligations.SpecWordsDecode : Prop :=
  decode (.request ⟨0, [1, 0, 0, 0]⟩) = .ok (.encode [1, 0, 0, 0]) ∧
  decode (.request ⟨1, [0x0100, 65535]⟩) = .ok (.decode [0x0100, 0xFFFF]) ∧
  decode (.header 0b0000_0000_00000111) = .ok (.h0 0 7) ∧
  decode (.header 0b1010_0001_11111111) = .ok (.h1 0xA 0xFF) ∧
  decode (.header 0b0000_0010_00000011) = .ok (.h2 0 3) ∧
  decode (.header 0b0000_0011_00101010) = .ok (.h3 0 0x2A) ∧
  decode (.header 0b0000_0100_00000001) = .ok (.illegalCnt4 0 1) ∧
  decode (.header 0b1111_1111_00000000) = .ok (.illegalCnt15 0xF 0) ∧
  decode (.operand 0b0000_1111_00000000) = .ok (.operandWord 0x0F00)

/-! ## The step -/

/-- A step executes the instruction it decodes: a request taken from the port of an IDLE instance; the ENCODE in
progress; the header at the cursor when a header step is due; else the DECODE in progress. -/
def Obligations.StepRunsDecodedInstruction : Prop :=
  (∀ (s : State) (r : Request) (rest : List Request) (i : Instr), s.op = .idle → s.offered = r :: rest →
    decode (.request r) = .ok i → step s = exec i { s with offered := rest }) ∧
  (∀ (s : State) (w : EncWork), s.op = .enc w → step s = exec (.encode w.input) s) ∧
  (∀ (s : State) (w : DecWork) (h : Word) (i : Instr), s.op = .dec w → w.st = .run → w.input[w.j]? = some h →
    decode (.header h) = .ok i → step s = exec i s) ∧
  (∀ (s : State) (w : DecWork), s.op = .dec w → w.st ≠ .run ∨ w.input.length ≤ w.j →
    step s = exec (.decode w.input) s)

/-- The model's choices for an IDLE instance with no request offered, which waits unchanged (log 2), and for a request
outside the port's domain, which the port refuses when it is offered, in every phase, and which has no step (log 6). -/
def Obligations.IdleInstanceWithoutUsableRequest : Prop :=
  (∀ s : State, s.op = .idle → s.offered = [] → step s = .next s) ∧
  (∀ (s : State) (r : Request), r.wf = false → applyEvent (.offer r) s = .refused .payloadNotUnits) ∧
  (∀ (s : State) (r : Request) (rest : List Request), s.op = .idle → s.offered = r :: rest → r.wf = false →
    step s = .refused .payloadNotUnits)

/-- The state right after reset, whatever the parameters: IDLE, no operation, nothing responded; that no request is
offered is the model's choice (log 8). -/
def Obligations.ResetStateIsIdle : Prop :=
  ∀ ps : Params, (State.resetWith ps).op = .idle ∧ (State.resetWith ps).phase = .idle ∧
    (State.resetWith ps).responses = [] ∧ (State.resetWith ps).offered = [] ∧ (State.resetWith ps).params = ps ∧
    State.reset = State.resetWith ⟨none⟩

/-! ## ENCODE, step by step -/

/-- R66: acceptance of ENCODE with the ragged-length precheck; a raise leaves `Out` discarded (R109). -/
def Obligations.EncodeAcceptance : Prop :=
  ∀ (s : State) (p : List Nat), s.op = .idle → s.params.admits p.length = true →
    exec (.encode p) s = .next (State.endStep { s with op := .enc (
      if p.length % 4 ≠ 0 then ⟨p, 0, Config.freeOut s.fresh, .fault 5 (.raggedProgram p.length)⟩
      else ⟨p, 0, [], .run⟩) })

/-- A request longer than `MaxInputLen` is refused (R116). That the port refuses it when it is offered, in every phase,
and that it has no step if it stands at the head of the port all the same, which no run reaches, is the model's reading
(log 5). It has no next state by either command; the port holds every other request of its domain, and with
`MaxInputLen` unbounded none is refused for its length. -/
def Obligations.OverLongRequestRefused : Prop :=
  (∀ (s : State) (r : Request) (m : Nat), r.wf = true → s.params.maxInputLen = some m →
    (m < r.payload.length → applyEvent (.offer r) s = .refused (.overLongRequest r.payload.length)) ∧
    (r.payload.length ≤ m → applyEvent (.offer r) s = .next { s with offered := s.offered ++ [r] })) ∧
  (∀ (s : State) (m : Nat), s.op = .idle → s.params.maxInputLen = some m →
    (∀ p : List Nat, m < p.length → exec (.encode p) s = .refused (.overLongRequest p.length)) ∧
    (∀ u : List Word, m < u.length → exec (.decode u) s = .refused (.overLongRequest u.length))) ∧
  (∀ (s : State) (r : Request) (rest : List Request) (m : Nat), s.op = .idle → s.offered = r :: rest →
    r.wf = true → s.params.maxInputLen = some m → m < r.payload.length →
    step s = .refused (.overLongRequest r.payload.length)) ∧
  (∀ (s : State), s.params.maxInputLen = none →
    (∀ r : Request, r.wf = true → applyEvent (.offer r) s = .next { s with offered := s.offered ++ [r] }) ∧
    (s.op = .idle → (∀ p : List Nat, ∃ t, exec (.encode p) s = .next t) ∧
      (∀ u : List Word, ∃ t, exec (.decode u) s = .next t)))

/-- R67 to R72: one record step of ENCODE, every check in its order, the header and the first `n` operands appended,
the cursor 4 further; on an error the status and a discarded `Out` (R109). -/
def Obligations.EncodeRecordStep : Prop :=
  ∀ (s : State) (w : EncWork) (t a b c : Nat), s.op = .enc w → w.st = .run →
    w.input[w.i]? = some t → w.input[w.i + 1]? = some a → w.input[w.i + 2]? = some b →
    w.input[w.i + 3]? = some c →
    let n := (if a ≠ 0 then 1 else 0) + (if b ≠ 0 then 1 else 0) + (if c ≠ 0 then 1 else 0)
    exec (.encode w.input) s = .next (State.endStep { s with op := .enc (
      if 255 < t then { w with out := Config.freeOut s.fresh, st := .fault 1 (.opcodeTooLarge t (w.i / 4)) }
      else if 65535 < a then { w with out := Config.freeOut s.fresh, st := .fault 2 (.operandTooLarge a (w.i / 4) 1) }
      else if 65535 < b then { w with out := Config.freeOut s.fresh, st := .fault 2 (.operandTooLarge b (w.i / 4) 2) }
      else if 65535 < c then { w with out := Config.freeOut s.fresh, st := .fault 2 (.operandTooLarge c (w.i / 4) 3) }
      else { w with
        out := w.out ++ BitVec.ofNat 16 (t ||| (n <<< 8)) :: ([a, b, c].take n).map (BitVec.ofNat 16)
        i := w.i + 4 }) })

/-- R73: the end step of ENCODE, the response `Ok(Out)` of the step after it, and, for a working state that its operation
passes through, `Out` as all the header and operand words of the program in order. -/
def Obligations.EncodeEndStep : Prop :=
  ∀ (s : State) (w : EncWork), s.op = .enc w → w.st = .run → w.i = w.input.length →
    exec (.encode w.input) s = .next (State.endStep { s with op := .enc { w with st := .done } }) ∧
    step (State.endStep { s with op := .enc { w with st := .done } }) =
      .next (State.endStep (State.endStep { s with op := .idle, responses := s.responses ++ [.ok w.out] })) ∧
    (w.Sound → encodeCommand w.input = .ok w.out)

/-- The response step of either command (10_state.md R23, R29(c)): `Ok(Out)` for DONE, `Err(code, info)` for FAULT,
then IDLE with the working state gone. -/
def Obligations.ResponseStep : Prop :=
  (∀ (s : State) (w : EncWork), s.op = .enc w →
    (w.st = .done → exec (.encode w.input) s =
      .next (State.endStep { s with op := .idle, responses := s.responses ++ [.ok w.out] })) ∧
    (∀ code info, w.st = .fault code info → exec (.encode w.input) s =
      .next (State.endStep { s with op := .idle, responses := s.responses ++ [.err code info] }))) ∧
  (∀ (s : State) (w : DecWork), s.op = .dec w →
    (w.st = .done → exec (.decode w.input) s =
      .next (State.endStep { s with op := .idle, responses := s.responses ++ [.ok w.out] })) ∧
    (∀ code info, w.st = .fault code info → exec (.decode w.input) s =
      .next (State.endStep { s with op := .idle, responses := s.responses ++ [.err code info] })))

/-! ## DECODE, step by step -/

/-- R82: acceptance of DECODE, with no check but the length limit. -/
def Obligations.DecodeAcceptance : Prop :=
  ∀ (s : State) (u : List Word), s.op = .idle → s.params.admits u.length = true →
    exec (.decode u) s = .next (State.endStep { s with op := .dec ⟨u, 0, [], .run⟩ })

/-- R83: one header step of DECODE by the rule's own masks: the range check, the truncation check, the writes. -/
def Obligations.DecodeHeaderStep : Prop :=
  ∀ (s : State) (w : DecWork) (h : Word), s.op = .dec w → w.st = .run → w.input[w.j]? = some h →
    let n := (h.toNat &&& 0x0F00) >>> 8
    exec (.decode w.input) s = .next (State.endStep { s with op := .dec (
      if 3 < n then { w with out := Config.freeOut s.fresh, st := .fault 4 (.corruptStream w.j n) }
      else if w.input.length < w.j + 1 + n then
        { w with out := Config.freeOut s.fresh, st := .fault 3 (.truncatedStream w.j n (w.input.length - w.j - 1)) }
      else { w with
        out := w.out ++ (h &&& 0x00FF) :: (w.input.drop (w.j + 1)).take n
        j := w.j + 1 + n }) })

/-- R91: the end step of DECODE, the response of the step after it, and the empty stream. -/
def Obligations.DecodeEndStep : Prop :=
  (∀ (s : State) (w : DecWork), s.op = .dec w → w.st = .run → w.j = w.input.length →
    exec (.decode w.input) s = .next (State.endStep { s with op := .dec { w with st := .done } }) ∧
    step (State.endStep { s with op := .dec { w with st := .done } }) =
      .next (State.endStep (State.endStep { s with op := .idle, responses := s.responses ++ [.ok w.out] }))) ∧
  decodeCommand [] = .ok []

/-- R84: H0 writes its opcode and moves the cursor by one; it raises nothing. -/
def Obligations.H0Meaning : Prop :=
  ∀ (s : State) (w : DecWork) (rsv : Rsv) (t : Opcode), s.op = .dec w → w.st = .run → w.j < w.input.length →
    exec (.h0 rsv t) s = .next (State.endStep { s with op := .dec { w with
      out := w.out ++ [t.setWidth 16], j := w.j + 1 } })

/-- R85: H1 writes its opcode and one operand word, or raises TruncatedStream when it is the last unit. -/
def Obligations.H1Meaning : Prop :=
  ∀ (s : State) (w : DecWork) (rsv : Rsv) (t : Opcode), s.op = .dec w → w.st = .run → w.j < w.input.length →
    (∀ v1 : Word, w.input[w.j + 1]? = some v1 →
      exec (.h1 rsv t) s = .next (State.endStep { s with op := .dec { w with
        out := w.out ++ [t.setWidth 16, v1], j := w.j + 2 } })) ∧
    (w.input.length < w.j + 2 →
      exec (.h1 rsv t) s = .next (State.endStep { s with op := .dec { w with
        out := Config.freeOut s.fresh, st := .fault 3 (.truncatedStream w.j 1 (w.input.length - w.j - 1)) } }))

/-- R86: H2 writes its opcode and two operand words, or raises TruncatedStream when fewer than two units follow. -/
def Obligations.H2Meaning : Prop :=
  ∀ (s : State) (w : DecWork) (rsv : Rsv) (t : Opcode), s.op = .dec w → w.st = .run → w.j < w.input.length →
    (∀ v1 v2 : Word, w.input[w.j + 1]? = some v1 → w.input[w.j + 2]? = some v2 →
      exec (.h2 rsv t) s = .next (State.endStep { s with op := .dec { w with
        out := w.out ++ [t.setWidth 16, v1, v2], j := w.j + 3 } })) ∧
    (w.input.length < w.j + 3 →
      exec (.h2 rsv t) s = .next (State.endStep { s with op := .dec { w with
        out := Config.freeOut s.fresh, st := .fault 3 (.truncatedStream w.j 2 (w.input.length - w.j - 1)) } }))

/-- R87: H3 writes its opcode and three operand words, or raises TruncatedStream when fewer than three units follow. -/
def Obligations.H3Meaning : Prop :=
  ∀ (s : State) (w : DecWork) (rsv : Rsv) (t : Opcode), s.op = .dec w → w.st = .run → w.j < w.input.length →
    (∀ v1 v2 v3 : Word, w.input[w.j + 1]? = some v1 → w.input[w.j + 2]? = some v2 → w.input[w.j + 3]? = some v3 →
      exec (.h3 rsv t) s = .next (State.endStep { s with op := .dec { w with
        out := w.out ++ [t.setWidth 16, v1, v2, v3], j := w.j + 4 } })) ∧
    (w.input.length < w.j + 4 →
      exec (.h3 rsv t) s = .next (State.endStep { s with op := .dec { w with
        out := Config.freeOut s.fresh, st := .fault 3 (.truncatedStream w.j 3 (w.input.length - w.j - 1)) } }))

/-- R88: every illegal class raises CorruptStream with its own count, whatever its opcode and `rsv` and however many
units follow. -/
def Obligations.IllegalClassesRaiseCorruptStream : Prop :=
  ∀ (s : State) (w : DecWork) (rsv : Rsv) (t : Opcode), s.op = .dec w → w.st = .run → w.j < w.input.length →
    let corrupt : Nat → StepOutcome := fun n => .next (State.endStep { s with op := .dec { w with
      out := Config.freeOut s.fresh, st := .fault 4 (.corruptStream w.j n) } })
    exec (.illegalCnt4 rsv t) s = corrupt 4 ∧ exec (.illegalCnt5 rsv t) s = corrupt 5 ∧
    exec (.illegalCnt6 rsv t) s = corrupt 6 ∧ exec (.illegalCnt7 rsv t) s = corrupt 7 ∧
    exec (.illegalCnt8 rsv t) s = corrupt 8 ∧ exec (.illegalCnt9 rsv t) s = corrupt 9 ∧
    exec (.illegalCnt10 rsv t) s = corrupt 10 ∧ exec (.illegalCnt11 rsv t) s = corrupt 11 ∧
    exec (.illegalCnt12 rsv t) s = corrupt 12 ∧ exec (.illegalCnt13 rsv t) s = corrupt 13 ∧
    exec (.illegalCnt14 rsv t) s = corrupt 14 ∧ exec (.illegalCnt15 rsv t) s = corrupt 15

/-- The operand word by itself, the model's share of a header step (R53, C3; log 10): appended unchanged, cursor by
one, whatever its value. -/
def Obligations.OperandWordCopied : Prop :=
  ∀ (s : State) (w : DecWork) (v : Word), s.op = .dec w → w.st = .run → w.j < w.input.length →
    exec (.operandWord v) s = .next (State.endStep { s with op := .dec { w with
      out := w.out ++ [v], j := w.j + 1 } })

/-- The class meanings (R84 to R88) and the generic header step (R83) are one function, in every state where a header step
is due. -/
def Obligations.ClassMeaningsAgreeWithHeaderStep : Prop :=
  ∀ (s : State) (w : DecWork) (h : Word), s.op = .dec w → w.st = .run → w.input[w.j]? = some h →
    exec (decodeHeader h) s = exec (.decode w.input) s

/-- The encoder writes 0 in bits 15..12, and headers that differ there only have the same effect in every state: the
spec's own inference R61 (from R51 and R52). -/
def Obligations.ReservedBitsIgnored : Prop :=
  (∀ t n : Nat, t ≤ 255 → n ≤ 3 → hdrRsv (formHeader t n) = 0) ∧
  (∀ (s : State) (h h' : Word), hdrCnt h = hdrCnt h' → hdrType h = hdrType h' →
    exec (decodeHeader h) s = exec (decodeHeader h') s) ∧
  decodeCommand [0x0001] = .ok [0x0001] ∧ decodeCommand [0xF001] = .ok [0x0001] ∧
  (∀ (u : List Word) (rsv : Rsv) (n : Count) (t : Opcode),
    decodeCommand (makeHeader rsv n t :: u) = decodeCommand (makeHeader 0 n t :: u))

/-! ## Where an instruction has no step -/

/-- The model's stops where the spec has no step: a header or operand word where no header step is due (log 12), and a
command whose cursor no run reaches (log 13). -/
def Obligations.StopsWhereNoStepIsDue : Prop :=
  (∀ (s : State) (i : Instr), (∀ p, i ≠ .encode p) → (∀ u, i ≠ .decode u) →
    (∀ w, s.op = .dec w → w.st = .run → w.input.length ≤ w.j) → exec i s = .fault .noRecordStep) ∧
  (∀ (s : State) (w : EncWork), s.op = .enc w → w.st = .run → w.i ≠ w.input.length →
    w.input.length < w.i + 4 → exec (.encode w.input) s = .fault .readPastEnd) ∧
  (∀ (s : State) (w : DecWork), s.op = .dec w → w.st = .run → w.input.length < w.j →
    exec (.decode w.input) s = .fault .readPastEnd)

/-- A command other than the one in progress has no step on a busy instance (10_state.md R30; log 12), and the step of
a busy instance takes nothing from the request port. -/
def Obligations.OtherCommandHeldWhileBusy : Prop :=
  (∀ (s : State) (w : EncWork), s.op = .enc w →
    (∀ p, p ≠ w.input → exec (.encode p) s = .refused .heldWhileBusy) ∧
    (∀ u, exec (.decode u) s = .refused .heldWhileBusy)) ∧
  (∀ (s : State) (w : DecWork), s.op = .dec w →
    (∀ u, u ≠ w.input → exec (.decode u) s = .refused .heldWhileBusy) ∧
    (∀ p, exec (.encode p) s = .refused .heldWhileBusy)) ∧
  (∀ s t : State, s.op ≠ .idle → step s = .next t → t.offered = s.offered)

/-! ## Frames -/

/-- The frame of every instruction: parameters and held requests unchanged; the responses unchanged, or one more, the
one the operation was ready to deliver, and then the instance is IDLE. -/
def Obligations.InstructionFrame : Prop :=
  ∀ (i : Instr) (s t : State), exec i s = .next t →
    t.params = s.params ∧ t.offered = s.offered ∧
    (t.responses = s.responses ∨
      ∃ r, s.op.response = some r ∧ t.responses = s.responses ++ [r] ∧ t.op = .idle)

/-- The frame of the header and operand words: nothing outside the decoder's working state, the input snapshot
unchanged (20_memory.md R33), and either an error with the cursor where it was and `Out` discarded, or the cursor
forward and every unit already in `Out` where it was (R35). -/
def Obligations.HeaderInstructionFrame : Prop :=
  ∀ (i : Instr) (s t : State), (∀ p, i ≠ .encode p) → (∀ u, i ≠ .decode u) → exec i s = .next t →
    t.params = s.params ∧ t.offered = s.offered ∧ t.responses = s.responses ∧
    ∃ w w' : DecWork, s.op = .dec w ∧ t.op = .dec w' ∧ w'.input = w.input ∧
      ((∃ code info, w'.st = .fault code info ∧ w'.j = w.j) ∨
       (w'.st = .run ∧ w.j < w'.j ∧ w'.out.length = w.out.length + (w'.j - w.j) ∧
        ∀ k, k < w.out.length → w'.out[k]? = w.out[k]?))

/-- The snapshot of an operation is never written and its output only grows, over every step of a busy instance
(20_memory.md R33, R35), until a raise discards it or the response ends the operation. -/
def Obligations.SnapshotNeverWritten : Prop :=
  (∀ (s t : State) (w : EncWork), s.op = .enc w → step s = .next t →
    t.op = .idle ∨ ∃ w' : EncWork, t.op = .enc w' ∧ w'.input = w.input ∧ w.i ≤ w'.i ∧
      ((∃ code info, w'.st = .fault code info) ∨ ∃ more, w'.out = w.out ++ more)) ∧
  (∀ (s t : State) (w : DecWork), s.op = .dec w → step s = .next t →
    t.op = .idle ∨ ∃ w' : DecWork, t.op = .dec w' ∧ w'.input = w.input ∧ w.j ≤ w'.j ∧
      ((∃ code info, w'.st = .fault code info) ∨ ∃ more, w'.out = w.out ++ more))

/-- The frame of a step: parameters never change (10_state.md R25), delivered responses stay (20_memory.md R47), one
response is added exactly by the response step, and the request port loses its head exactly by an acceptance. -/
def Obligations.StepFrame : Prop :=
  ∀ s t : State, step s = .next t →
    t.params = s.params ∧ t.responses = s.responses ++ s.op.response.toList ∧
    (s.op = .idle → t.offered = s.offered.tail) ∧ (s.op ≠ .idle → t.offered = s.offered)

/-- No instruction's outcome depends on what the latches hold when it starts (10_state.md R20). -/
def Obligations.OutcomeIgnoresLatches : Prop :=
  ∀ (i : Instr) (s : State) (l : Latches), exec i { s with latches := l } = exec i s

/-! ## Invariants -/

/-- The invariant holds after reset, whatever the parameters. -/
def Obligations.InvariantAfterReset : Prop :=
  ∀ ps : Params, (State.resetWith ps).Inv

/-- Every step keeps the invariant, and each of its halves alone: the operation's cursor, output and status are those of
the part of the payload before the cursor, as the transaction view gives them; and every request held is one that the
port takes. -/
def Obligations.StepKeepsInvariant : Prop :=
  ∀ s t : State, step s = .next t →
    (s.OperationSound → t.OperationSound) ∧ (s.PortAdmitted → t.PortAdmitted) ∧ (s.Inv → t.Inv)

/-- The invariant holds in every state that an instance can be in, whatever the host offers and whenever it resets. -/
def Obligations.InvariantOfReachableStates : Prop :=
  ∀ s : State, Reachable s → s.Inv

/-- In every reachable state the encoder's cursor is a multiple of 4 within its input with a whole record left at a
record step, and the decoder's cursor is within its input and is the length of its output unless it failed: the spec's
own inferences R22 (from R21, R66 and R89) and R93 (from R83). -/
def Obligations.CursorAlignedAndInRange : Prop :=
  ∀ s : State, Reachable s →
    (∀ w, s.op = .enc w → w.i % 4 = 0 ∧ w.i ≤ w.input.length ∧
      (w.st = .run → w.i < w.input.length → w.i + 4 ≤ w.input.length)) ∧
    (∀ w, s.op = .dec w → w.j ≤ w.input.length ∧
      ((∀ code info, w.st ≠ .fault code info) → w.out.length = w.j))

/-- From a state whose operation is sound no step faults, and a step is taken unless the instance is IDLE and the
request at the head of its port is one it refuses; so a step is taken from every state with the invariant. With nothing
offered, the step of an IDLE instance is the model's choice (log 2). -/
def Obligations.SoundInstanceKeepsStepping : Prop :=
  ∀ s : State,
    (s.OperationSound →
      (∀ f, step s ≠ .fault f) ∧ (s.op ≠ .idle ∨ s.HeadAcceptable → ∃ t, step s = .next t)) ∧
    (s.Inv → ∃ t, step s = .next t)

/-! ## The transaction view -/

/-- The steps of ENCODE compose to its transaction view (40_encoder.md R65): one response, the one the view gives,
within the step counts of 70_reset_and_hazards.md R141. -/
def Obligations.EncodeStepsGiveItsTransaction : Prop :=
  ∀ (s : State) (p : List Nat) (rest : List Request), s.op = .idle → s.offered = ⟨0, p⟩ :: rest →
    s.params.admits p.length = true →
    ∃ (k : Nat) (t : State), runSteps k s = .next t ∧ t.op = .idle ∧ t.offered = rest ∧ t.params = s.params ∧
      t.responses = s.responses ++ [resultResponse (encodeCommand p)] ∧ k ≤ p.length / 4 + 3 ∧
      ((∃ units, encodeCommand p = .ok units) → k = p.length / 4 + 3)

/-- The steps of DECODE compose to its transaction view (41_decoder.md R81): one response, the one the view gives,
within the step counts of R141. -/
def Obligations.DecodeStepsGiveItsTransaction : Prop :=
  ∀ (s : State) (u : List Word) (rest : List Request), s.op = .idle →
    s.offered = ⟨1, u.map BitVec.toNat⟩ :: rest → s.params.admits u.length = true →
    ∃ (k : Nat) (t : State), runSteps k s = .next t ∧ t.op = .idle ∧ t.offered = rest ∧ t.params = s.params ∧
      t.responses = s.responses ++ [resultResponse (decodeCommand u)] ∧ k ≤ u.length + 3

/-- The operation in progress of a busy instance ends, with the response of its own transaction, and then every held
request is served, in the order offered, each by the response of its own transaction (10_state.md R30, 20_memory.md
R44; the spec's own inference R142). That held requests stand in one queue is the model's reading (log 8). -/
def Obligations.HeldRequestsServedInOrder : Prop :=
  ∀ s : State, s.Inv →
    ∃ (k : Nat) (t : State), runSteps k s = .next t ∧ t.op = .idle ∧ t.offered = [] ∧ t.params = s.params ∧
      t.responses.map some =
        s.responses.map some ++
        (match s.op with
          | .idle => []
          | .enc w => [some (resultResponse (encodeCommand w.input))]
          | .dec w => [some (resultResponse (decodeCommand w.input))]) ++
        s.offered.map (requestResponse s.params)

/-- What a step does to the operation, the request port and the responses is a function of the operation, the request
port, the parameters and the free value it draws: no earlier response and no latch has any influence (10_state.md R16). -/
def Obligations.StepIgnoresResponsesAndLatches : Prop :=
  ∀ s u : State, s.op = u.op → s.params = u.params → s.offered = u.offered → s.fresh = u.fresh →
    match step s, step u with
    | .next t, .next v => t.op = v.op ∧ t.offered = v.offered ∧
        ∃ added, t.responses = s.responses ++ added ∧ v.responses = u.responses ++ added
    | .fault f, .fault g => f = g
    | .refused a, .refused b => a = b
    | _, _ => False

/-- R117: the error that ENCODE reports: ragged length before any record; then the first failing record, its opcode
before its operands, its operands in slot order. -/
def Obligations.EncodeReportsFirstError : Prop :=
  (∀ p : List Nat, p.length % 4 ≠ 0 → encodeCommand p = .error (.raggedProgram p.length)) ∧
  (∀ (q r : List Nat) (t a b c : Nat) (units : List Word), q.length % 4 = 0 → r.length % 4 = 0 →
    encodeCommand q = .ok units →
    let p := q ++ t :: a :: b :: c :: r
    (255 < t → encodeCommand p = .error (.opcodeTooLarge t (q.length / 4))) ∧
    (t ≤ 255 → 65535 < a → encodeCommand p = .error (.operandTooLarge a (q.length / 4) 1)) ∧
    (t ≤ 255 → a ≤ 65535 → 65535 < b → encodeCommand p = .error (.operandTooLarge b (q.length / 4) 2)) ∧
    (t ≤ 255 → a ≤ 65535 → b ≤ 65535 → 65535 < c →
      encodeCommand p = .error (.operandTooLarge c (q.length / 4) 3)))

/-- R118, R89, R90: the error that DECODE reports: the first failing header, whatever follows it; its count's range
before the words that remain. -/
def Obligations.DecodeReportsFirstError : Prop :=
  ∀ (q r : List Word) (h : Word) (units : List Word), decodeCommand q = .ok units →
    (3 < (hdrCnt h).toNat →
      decodeCommand (q ++ h :: r) = .error (.corruptStream q.length (hdrCnt h).toNat)) ∧
    ((hdrCnt h).toNat ≤ 3 → r.length < (hdrCnt h).toNat →
      decodeCommand (q ++ h :: r) = .error (.truncatedStream q.length (hdrCnt h).toNat r.length))

/-- What ENCODE gives, DECODE takes, and the result is the opcode and the first `n` operands of each record: the spec's
own inference R94 (from R65 and R83). -/
def Obligations.DecodeOfEncode : Prop :=
  ∀ (p : List Nat) (units : List Word), encodeCommand p = .ok units →
    decodeCommand units = .ok ((recordsOf p).flatMap (fun r =>
      (r.1 :: [r.2.1, r.2.2.1, r.2.2.2].take (operandCount r.2.1 r.2.2.1 r.2.2.2)).map (BitVec.ofNat 16)))

/-- The length of an encoded stream: the spec's own inference R75 (from R71 and R72). -/
def Obligations.EncodedLength : Prop :=
  ∀ (p : List Nat) (units : List Word), encodeCommand p = .ok units →
    units.length = ((recordsOf p).map (fun r => 1 + operandCount r.2.1 r.2.2.1 r.2.2.2)).sum ∧
    p.length / 4 ≤ units.length ∧ units.length ≤ p.length ∧
    (units.length = p.length ↔ ∀ r ∈ recordsOf p, r.2.1 ≠ 0 ∧ r.2.2.1 ≠ 0 ∧ r.2.2.2 ≠ 0)

/-- ENCODE of a concatenation: the spec's own inference R80 (from R67 and R117). -/
def Obligations.EncodeConcatenation : Prop :=
  ∀ p q : List Nat, p.length % 4 = 0 → q.length % 4 = 0 →
    (∀ e f, encodeCommand p = .ok e → encodeCommand q = .ok f → encodeCommand (p ++ q) = .ok (e ++ f)) ∧
    (∀ info, encodeCommand p = .error info → encodeCommand (p ++ q) = .error info) ∧
    (∀ e info, encodeCommand p = .ok e → encodeCommand q = .error info →
      encodeCommand (p ++ q) = .error (shiftRecord (p.length / 4) info))

/-- DECODE of a concatenation of two streams that decode: the first law of the spec's own inference R96 (from R83 and
R91). -/
def Obligations.DecodeConcatenation : Prop :=
  ∀ (u v d f : List Word), decodeCommand u = .ok d → decodeCommand v = .ok f →
    decodeCommand (u ++ v) = .ok (d ++ f)

/-- The second law of the spec's own inference R93 (from R83): a decoded stream has the stream's length; at a header position it holds the header's low
byte, at every other position the unit itself. -/
def Obligations.DecodedShape : Prop :=
  ∀ u d : List Word, decodeCommand u = .ok d → d.length = u.length ∧
    ∀ (k : Nat) (x : Word), u[k]? = some x →
      (HeaderPosition u k → d[k]? = some (x &&& 0x00FF)) ∧ (¬ HeaderPosition u k → d[k]? = some x)

/-- R78: the ambiguity, kept: the slot of a single non-zero operand decides what is emitted, not its value. -/
def Obligations.AmbiguityKept : Prop :=
  ∀ t v : Nat, t ≤ 255 → 0 < v → v ≤ 65535 →
    encodeCommand [t, 0, v, 0] = .ok [BitVec.ofNat 16 (t ||| 0x0100), 0x0000] ∧
    encodeCommand [t, 0, 0, v] = .ok [BitVec.ofNat 16 (t ||| 0x0100), 0x0000] ∧
    encodeCommand [t, v, 0, 0] = .ok [BitVec.ofNat 16 (t ||| 0x0100), BitVec.ofNat 16 v]

/-- R76, R77: the empty program, its end step at once, and the records with no and with all operands. -/
def Obligations.EmptyAndExtremeRecords : Prop :=
  encodeCommand [] = .ok [] ∧
  (∀ s : State, s.op = .enc ⟨[], 0, [], .run⟩ →
    exec (.encode []) s = .next (State.endStep { s with op := .enc ⟨[], 0, [], .done⟩ })) ∧
  (∀ t : Nat, t ≤ 255 → encodeCommand [t, 0, 0, 0] = .ok [BitVec.ofNat 16 t] ∧
    encodeCommand [t, 5, 9, 3] = .ok [BitVec.ofNat 16 (t ||| 0x0300), 5, 9, 3] ∧
    hdrCnt (BitVec.ofNat 16 t) = 0)

/-! ## Errors, reset, several instances -/

/-- R108: the codes, and each response's code. -/
def Obligations.ErrorCodes : Prop :=
  (∀ v k, (ErrorInfo.opcodeTooLarge v k).code = 1) ∧ (∀ v k slot, (ErrorInfo.operandTooLarge v k slot).code = 2) ∧
  (∀ p n m, (ErrorInfo.truncatedStream p n m).code = 3) ∧ (∀ p n, (ErrorInfo.corruptStream p n).code = 4) ∧
  (∀ l, (ErrorInfo.raggedProgram l).code = 5) ∧ (∀ l, (ErrorInfo.oddLengthArtifact l).code = 6) ∧
  (∀ units, (resultResponse (.ok units)).code = 0) ∧
  (∀ e : ErrorInfo, resultResponse (.error e) = .err e.code e ∧ (resultResponse (.error e)).code = e.code)

/-- R109: a raise, on either working state: FAULT with the kind's code, `Out` discarded, the input, the cursor
and everything outside the operation unchanged; the next step responds with the error and the instance is IDLE. -/
def Obligations.RaiseAndReturn : Prop :=
  (∀ (s : State) (w : EncWork) (e : ErrorInfo), s.op = .enc w →
    s.raise e = { s with op := .enc ⟨w.input, w.i, Config.freeOut s.fresh, .fault e.code e⟩ } ∧
    step (s.raise e) = .next (State.endStep { s with op := .idle, responses := s.responses ++ [.err e.code e] })) ∧
  (∀ (s : State) (w : DecWork) (e : ErrorInfo), s.op = .dec w →
    s.raise e = { s with op := .dec ⟨w.input, w.j, Config.freeOut s.fresh, .fault e.code e⟩ } ∧
    step (s.raise e) = .next (State.endStep { s with op := .idle, responses := s.responses ++ [.err e.code e] }))

/-- R128: a reset abandons the operation in flight: IDLE, no response for it, delivered responses and parameters
unchanged; that requests still offered stay is the model's choice (log 8). -/
def Obligations.ResetAbandonsOperation : Prop :=
  ∀ s : State, applyEvent .resetLine s = .next s.resetEvent ∧ s.resetEvent.op = .idle ∧
    s.resetEvent.op.response = none ∧ s.resetEvent.responses = s.responses ∧
    s.resetEvent.params = s.params ∧ s.resetEvent.offered = s.offered

/-- After a reset of any state, sound or not, the response to the next request is the one of its transaction: the spec's
own inference R130 (from R16 and R127). -/
def Obligations.ResponseAfterResetIsItsOwn : Prop :=
  ∀ (s : State) (r : Request), s.offered = [] → r.wf = true → s.params.admits r.payload.length = true →
    ∃ (k : Nat) (u t : State) (q : Response), requestResponse s.params r = some q ∧
      applyEvent (.offer r) s.resetEvent = .next u ∧ runSteps k u = .next t ∧ t.op = .idle ∧
      t.responses = s.responses ++ [q]

/-- Under every schedule each instance is in the state it would be in alone: the spec's own inference R43 (from R33, R35
and R39). -/
def Obligations.InstancesDoNotInterfere : Prop :=
  ∀ (schedule : List (Nat × Event)) (p : Platform) (k : Nat) (s : State), p.instances[k]? = some s →
    (Platform.run schedule p).instances[k]? = some (runEvents (eventsOf k schedule) s)

/-! ## The adapters -/

/-- R100: the place of each unit's bytes in a byte artifact. -/
def Obligations.ByteLayout : Prop :=
  ∀ (e : List Word) (o : ByteOrder), (toBytes e o).length = 2 * e.length ∧
    ∀ (k : Nat) (u : Word), e[k]? = some u →
      (toBytes e .little)[2 * k]? = some (BitVec.ofNat 8 (u.toNat % 256)) ∧
      (toBytes e .little)[2 * k + 1]? = some (BitVec.ofNat 8 (u.toNat / 256)) ∧
      (toBytes e .big)[2 * k]? = some (BitVec.ofNat 8 (u.toNat / 256)) ∧
      (toBytes e .big)[2 * k + 1]? = some (BitVec.ofNat 8 (u.toNat % 256))

/-- R101: the odd-length error, and each unit of an even number of bytes. -/
def Obligations.ByteDeserialization : Prop :=
  ∀ (y : List Byte) (o : ByteOrder),
    (y.length % 2 = 1 → fromBytes y o = .error (.oddLengthArtifact y.length)) ∧
    (y.length % 2 = 0 → ∃ e : List Word, fromBytes y o = .ok e ∧ e.length = y.length / 2 ∧
      ∀ (k : Nat) (x z : Byte), y[2 * k]? = some x → y[2 * k + 1]? = some z →
        e[k]? = some (match o with
          | .little => BitVec.ofNat 16 (x.toNat ||| (z.toNat <<< 8))
          | .big => BitVec.ofNat 16 ((x.toNat <<< 8) ||| z.toNat))) ∧
    (ErrorInfo.oddLengthArtifact y.length).code = 6

/-- The spec's own inference R104 (from R98 to R101): the adapter round trips, and the DECODE request of any carrier of a stream is the one of the stream. -/
def Obligations.AdapterRoundTrips : Prop :=
  ∀ (e : List Word) (o : ByteOrder),
    fromText (toText e) = e ∧ fromBuffer (toBuffer e) = e ∧ fromBytes (toBytes e o) o = .ok e ∧
    (∀ c ∈ [Carrier.text (toText e), Carrier.buffer (toBuffer e), Carrier.bytes (toBytes e o) o],
      ∃ r, c.request = .ok r ∧ decode (.request r) = .ok (.decode e))

/-- Reading bytes in the other order swaps the bytes of every unit: the spec's own inference R105 (from R100, R101 and
R89). -/
def Obligations.ByteOrderMismatchSwapsBytes : Prop :=
  (∀ e : List Word,
    fromBytes (toBytes e .little) .big = .ok (e.map (fun u => BitVec.ofNat 16 (u.toNat % 256 * 256 + u.toNat / 256))) ∧
    fromBytes (toBytes e .big) .little =
      .ok (e.map (fun u => BitVec.ofNat 16 (u.toNat % 256 * 256 + u.toNat / 256)))) ∧
  fromBytes (toBytes [0x0102, 0x0005] .little) .big = .ok [0x0201, 0x0500] ∧
  decodeCommand [0x0201, 0x0500] = .error (.truncatedStream 0 2 1)
end

