-- ==== Sys2Proof/Laws/State.lean ====
section
/-! SUPPORT. One lemma per field per update of State and of the working states, and the lemmas of the latches. -/

namespace Sys2Proof.Machine

@[simp] theorem setOp_op (o : Operation) (s : State) : (s.setOp o).op = o := rfl
@[simp] theorem setOp_params (o : Operation) (s : State) : (s.setOp o).params = s.params := rfl
@[simp] theorem setOp_offered (o : Operation) (s : State) : (s.setOp o).offered = s.offered := rfl
@[simp] theorem setOp_responses (o : Operation) (s : State) : (s.setOp o).responses = s.responses := rfl
@[simp] theorem setOp_latches (o : Operation) (s : State) : (s.setOp o).latches = s.latches := rfl
@[simp] theorem setOp_fresh (o : Operation) (s : State) : (s.setOp o).fresh = s.fresh := rfl

@[simp] theorem endStep_op (s : State) : s.endStep.op = s.op := rfl
@[simp] theorem endStep_params (s : State) : s.endStep.params = s.params := rfl
@[simp] theorem endStep_offered (s : State) : s.endStep.offered = s.offered := rfl
@[simp] theorem endStep_responses (s : State) : s.endStep.responses = s.responses := rfl
@[simp] theorem endStep_fresh (s : State) : s.endStep.fresh = s.fresh + 1 := rfl

@[simp] theorem latchRecord_op (t a b c : Nat) (s : State) : (s.latchRecord t a b c).op = s.op := rfl
@[simp] theorem latchRecord_params (t a b c : Nat) (s : State) : (s.latchRecord t a b c).params = s.params := rfl
@[simp] theorem latchRecord_offered (t a b c : Nat) (s : State) : (s.latchRecord t a b c).offered = s.offered := rfl
@[simp] theorem latchRecord_responses (t a b c : Nat) (s : State) :
    (s.latchRecord t a b c).responses = s.responses := rfl
@[simp] theorem latchRecord_fresh (t a b c : Nat) (s : State) : (s.latchRecord t a b c).fresh = s.fresh := rfl
@[simp] theorem latchRecord_t (t a b c : Nat) (s : State) : (s.latchRecord t a b c).latches.t = t := rfl
@[simp] theorem latchRecord_a (t a b c : Nat) (s : State) : (s.latchRecord t a b c).latches.a = a := rfl
@[simp] theorem latchRecord_b (t a b c : Nat) (s : State) : (s.latchRecord t a b c).latches.b = b := rfl
@[simp] theorem latchRecord_c (t a b c : Nat) (s : State) : (s.latchRecord t a b c).latches.c = c := rfl

@[simp] theorem latchCount_op (n : Nat) (s : State) : (s.latchCount n).op = s.op := rfl
@[simp] theorem latchCount_params (n : Nat) (s : State) : (s.latchCount n).params = s.params := rfl
@[simp] theorem latchCount_offered (n : Nat) (s : State) : (s.latchCount n).offered = s.offered := rfl
@[simp] theorem latchCount_responses (n : Nat) (s : State) : (s.latchCount n).responses = s.responses := rfl
@[simp] theorem latchCount_fresh (n : Nat) (s : State) : (s.latchCount n).fresh = s.fresh := rfl
@[simp] theorem latchCount_n (n : Nat) (s : State) : (s.latchCount n).latches.n = BitVec.ofNat 4 n := rfl
@[simp] theorem latchCount_t (n : Nat) (s : State) : (s.latchCount n).latches.t = s.latches.t := rfl

@[simp] theorem latchHeader_op (h : Word) (s : State) : (s.latchHeader h).op = s.op := rfl
@[simp] theorem latchHeader_params (h : Word) (s : State) : (s.latchHeader h).params = s.params := rfl
@[simp] theorem latchHeader_offered (h : Word) (s : State) : (s.latchHeader h).offered = s.offered := rfl
@[simp] theorem latchHeader_responses (h : Word) (s : State) : (s.latchHeader h).responses = s.responses := rfl
@[simp] theorem latchHeader_fresh (h : Word) (s : State) : (s.latchHeader h).fresh = s.fresh := rfl
@[simp] theorem latchHeader_hdr (h : Word) (s : State) : (s.latchHeader h).latches.hdr = h := rfl
@[simp] theorem latchHeader_n (h : Word) (s : State) : (s.latchHeader h).latches.n = s.latches.n := rfl

@[simp] theorem latchOpcode_op (t : Opcode) (s : State) : (s.latchOpcode t).op = s.op := rfl
@[simp] theorem latchOpcode_params (t : Opcode) (s : State) : (s.latchOpcode t).params = s.params := rfl
@[simp] theorem latchOpcode_offered (t : Opcode) (s : State) : (s.latchOpcode t).offered = s.offered := rfl
@[simp] theorem latchOpcode_responses (t : Opcode) (s : State) : (s.latchOpcode t).responses = s.responses := rfl
@[simp] theorem latchOpcode_fresh (t : Opcode) (s : State) : (s.latchOpcode t).fresh = s.fresh := rfl
@[simp] theorem latchOpcode_t (t : Opcode) (s : State) : (s.latchOpcode t).latches.t = t.toNat := rfl

@[simp] theorem deliver_op (r : Response) (s : State) : (s.deliver r).op = .idle := rfl
@[simp] theorem deliver_params (r : Response) (s : State) : (s.deliver r).params = s.params := rfl
@[simp] theorem deliver_offered (r : Response) (s : State) : (s.deliver r).offered = s.offered := rfl
@[simp] theorem deliver_responses (r : Response) (s : State) :
    (s.deliver r).responses = s.responses ++ [r] := rfl
@[simp] theorem deliver_fresh (r : Response) (s : State) : (s.deliver r).fresh = s.fresh := rfl

@[simp] theorem enqueue_op (r : Request) (s : State) : (s.enqueue r).op = s.op := rfl
@[simp] theorem enqueue_params (r : Request) (s : State) : (s.enqueue r).params = s.params := rfl
@[simp] theorem enqueue_offered (r : Request) (s : State) : (s.enqueue r).offered = s.offered ++ [r] := rfl
@[simp] theorem enqueue_responses (r : Request) (s : State) : (s.enqueue r).responses = s.responses := rfl

@[simp] theorem resetEvent_op (s : State) : s.resetEvent.op = .idle := rfl
@[simp] theorem resetEvent_params (s : State) : s.resetEvent.params = s.params := rfl
@[simp] theorem resetEvent_offered (s : State) : s.resetEvent.offered = s.offered := rfl
@[simp] theorem resetEvent_responses (s : State) : s.resetEvent.responses = s.responses := rfl

@[simp] theorem raise_op (e : ErrorInfo) (s : State) : (s.raise e).op = s.op.raise e (Config.freeOut s.fresh) := rfl
@[simp] theorem raise_params (e : ErrorInfo) (s : State) : (s.raise e).params = s.params := rfl
@[simp] theorem raise_offered (e : ErrorInfo) (s : State) : (s.raise e).offered = s.offered := rfl
@[simp] theorem raise_responses (e : ErrorInfo) (s : State) : (s.raise e).responses = s.responses := rfl
@[simp] theorem raise_fresh (e : ErrorInfo) (s : State) : (s.raise e).fresh = s.fresh := rfl

/-- Two states that differ in their latches only are the same state after a step boundary: the boundary overwrites
every latch (10_state.md R20). -/
theorem endStep_eq_of_same {s u : State} (hp : s.params = u.params) (ho : s.op = u.op)
    (hq : s.offered = u.offered) (hr : s.responses = u.responses) (hf : s.fresh = u.fresh) :
    s.endStep = u.endStep := by
  cases s; cases u; simp only [State.endStep] at *; subst hp ho hq hr hf; rfl

@[simp] theorem encMemWrite_input (v : Word) (w : EncWork) : (w.memWrite v).input = w.input := rfl
@[simp] theorem encMemWrite_i (v : Word) (w : EncWork) : (w.memWrite v).i = w.i := rfl
@[simp] theorem encMemWrite_out (v : Word) (w : EncWork) : (w.memWrite v).out = w.out ++ [v] := rfl
@[simp] theorem encMemWrite_st (v : Word) (w : EncWork) : (w.memWrite v).st = w.st := rfl
@[simp] theorem encAdvance_input (d : Nat) (w : EncWork) : (w.advance d).input = w.input := rfl
@[simp] theorem encAdvance_i (d : Nat) (w : EncWork) : (w.advance d).i = w.i + d := rfl
@[simp] theorem encAdvance_out (d : Nat) (w : EncWork) : (w.advance d).out = w.out := rfl
@[simp] theorem encAdvance_st (d : Nat) (w : EncWork) : (w.advance d).st = w.st := rfl
@[simp] theorem decMemWrite_input (v : Word) (w : DecWork) : (w.memWrite v).input = w.input := rfl
@[simp] theorem decMemWrite_j (v : Word) (w : DecWork) : (w.memWrite v).j = w.j := rfl
@[simp] theorem decMemWrite_out (v : Word) (w : DecWork) : (w.memWrite v).out = w.out ++ [v] := rfl
@[simp] theorem decMemWrite_st (v : Word) (w : DecWork) : (w.memWrite v).st = w.st := rfl
@[simp] theorem decAdvance_input (d : Nat) (w : DecWork) : (w.advance d).input = w.input := rfl
@[simp] theorem decAdvance_j (d : Nat) (w : DecWork) : (w.advance d).j = w.j + d := rfl
@[simp] theorem decAdvance_out (d : Nat) (w : DecWork) : (w.advance d).out = w.out := rfl
@[simp] theorem decAdvance_st (d : Nat) (w : DecWork) : (w.advance d).st = w.st := rfl
@[simp] theorem copyOperand_input (w : DecWork) (v : Word) : (w.copyOperand v).input = w.input := rfl
@[simp] theorem copyOperand_j (w : DecWork) (v : Word) : (w.copyOperand v).j = w.j + 1 := rfl
@[simp] theorem copyOperand_out (w : DecWork) (v : Word) : (w.copyOperand v).out = w.out ++ [v] := rfl
@[simp] theorem copyOperand_st (w : DecWork) (v : Word) : (w.copyOperand v).st = w.st := rfl

end Sys2Proof.Machine
end

