-- ==== Sys2Proof/Laws/Ops.lean ====
section
/-! SUPPORT. One specification lemma per shared operation: what it can do, said once, for the proofs to cite. -/

namespace Sys2Proof.Machine

/-! ### Conditions -/

@[simp] theorem opcodeOver_iff (t : Nat) : opcodeOver t = true ↔ 255 < t :=
  decide_eq_true_iff

@[simp] theorem operandOver_iff (v : Nat) : operandOver v = true ↔ 65535 < v :=
  decide_eq_true_iff

@[simp] theorem raggedLength_iff (len : Nat) : raggedLength len = true ↔ len % 4 ≠ 0 := by
  simp [raggedLength, Config.recordArity]

/-- A record passes its checks exactly when its opcode and its operands are in range (30_encoding.md R49). -/
theorem recordError_eq_none {k t a b c : Nat} :
    recordError k t a b c = none ↔ t ≤ 255 ∧ a ≤ 65535 ∧ b ≤ 65535 ∧ c ≤ 65535 := by
  unfold recordError
  simp only [opcodeOver_iff, operandOver_iff]
  split <;> (try split) <;> (try split) <;> (try split) <;> simp <;> omega

/-- A header passes its checks exactly when its count is legal and its operand words are there (R83). -/
theorem headerError_eq_none {j n len : Nat} : headerError j n len = none ↔ n ≤ 3 ∧ j + 1 + n ≤ len := by
  unfold headerError Config.maxOperands
  split <;> (try split) <;> simp <;> omega

/-! ### Operand forms -/

theorem operandCount_le (a b c : Nat) : operandCount a b c ≤ 3 := by
  unfold operandCount boolToNat
  split <;> split <;> split <;> omega

@[simp] theorem operandCount_latch (a b c : Nat) :
    (BitVec.ofNat 4 (operandCount a b c)).toNat = operandCount a b c := by
  have h := operandCount_le a b c
  simp only [BitVec.toNat_ofNat]
  exact Nat.mod_eq_of_lt (by omega)

/-- A record is read exactly when four elements are there. -/
theorem readRecord_eq_some {input : List Nat} {i t a b c : Nat} :
    readRecord input i = some (t, a, b, c) ↔
      input[i]? = some t ∧ input[i + 1]? = some a ∧ input[i + 2]? = some b ∧ input[i + 3]? = some c := by
  unfold readRecord memRead
  cases input[i]? <;> cases input[i + 1]? <;> cases input[i + 2]? <;> cases input[i + 3]? <;>
    simp

theorem readRecord_isSome_of_le {input : List Nat} {i : Nat} (h : i + 4 ≤ input.length) :
    ∃ t a b c, readRecord input i = some (t, a, b, c) :=
  ⟨input[i], input[i + 1], input[i + 2], input[i + 3], by
    rw [readRecord_eq_some]
    refine ⟨?_, ?_, ?_, ?_⟩ <;> exact List.getElem?_eq_getElem _⟩

theorem operandWords_length {input : List Word} {start n : Nat} (h : start + n ≤ input.length) :
    (operandWords input start n).length = n := by
  simp [operandWords]; omega

/-! ### Writing the output -/

/-- Writing units one by one appends them in order and changes nothing else. -/
theorem foldl_memWrite (units : List Word) (w : EncWork) :
    units.foldl (fun v u => EncWork.memWrite u v) w = { w with out := w.out ++ units } := by
  induction units generalizing w with
  | nil => simp
  | cons u rest ih => rw [List.foldl_cons, ih]; simp [EncWork.memWrite]

/-- Copying operand words one by one appends them in order and moves the cursor past them. -/
theorem foldl_copyOperand (units : List Word) (w : DecWork) :
    units.foldl DecWork.copyOperand w =
      { w with out := w.out ++ units, j := w.j + units.length } := by
  induction units generalizing w with
  | nil => simp
  | cons u rest ih =>
    rw [List.foldl_cons, ih]
    simp [DecWork.copyOperand, DecWork.memWrite, DecWork.advance]; omega

theorem copyOperands_eq {n : Nat} {w : DecWork} (h : w.j + n ≤ w.input.length) :
    w.copyOperands n = { w with out := w.out ++ operandWords w.input w.j n, j := w.j + n } := by
  rw [DecWork.copyOperands, foldl_copyOperand, operandWords_length h]

/-! ### Latches -/

@[simp] theorem latch_opcode (t : Opcode) : BitVec.ofNat 8 t.toNat = t := by simp

/-! ### The record step and the header step -/

/-- A record step whose record passes its checks: what is written and where the cursor goes (40_encoder.md R67). -/
theorem encRec_ok {w : EncWork} {s : State} {t a b c : Nat}
    (hr : readRecord w.input w.i = some (t, a, b, c))
    (he : recordError (w.i / 4) t a b c = none) :
    encRec w s = .next (s.setOp (.enc { w with i := w.i + 4, out := w.out ++ recordUnits t a b c })).endStep := by
  simp only [encRec, hr, Config.recordArity, latchRecord_t, latchRecord_a, latchRecord_b, latchRecord_c, he,
    encEmit, foldl_memWrite]
  refine congrArg _ (endStep_eq_of_same ?_ ?_ ?_ ?_ ?_) <;> try rfl
  simp only [setOp_op, latchHeader_hdr, latchHeader_n, latchCount_n, operandCount_latch, recordUnits,
    EncWork.advance]

/-- A record step whose record fails a check (60_exceptions.md R109). -/
theorem encRec_error {w : EncWork} {s : State} {t a b c : Nat} {e : ErrorInfo}
    (hr : readRecord w.input w.i = some (t, a, b, c)) (hs : s.op = .enc w)
    (he : recordError (w.i / 4) t a b c = some e) :
    encRec w s = .next (s.setOp (.enc { w with out := Config.freeOut s.fresh, st := .fault e.code e })).endStep := by
  simp only [encRec, hr, Config.recordArity, latchRecord_t, latchRecord_a, latchRecord_b, latchRecord_c, he]
  refine congrArg _ (endStep_eq_of_same ?_ ?_ ?_ ?_ ?_) <;> simp [hs, Operation.raise]

/-- A header step whose header passes its checks (41_decoder.md R83). -/
theorem headerStep_ok {h : Word} {t : Opcode} {n : Nat} {w : DecWork} {s : State} (hn : n < 16)
    (he : headerError w.j n w.input.length = none) :
    headerStep h t n w s = .next (s.setOp (.dec { w with
      j := w.j + 1 + n, out := w.out ++ zext16 t :: operandWords w.input (w.j + 1) n })).endStep := by
  have hl : w.j + 1 + n ≤ w.input.length := by
    unfold headerError at he
    split at he
    · cases he
    · split at he
      · cases he
      · omega
  have hn' : (BitVec.ofNat 4 n).toNat = n := by
    rw [BitVec.toNat_ofNat]; exact Nat.mod_eq_of_lt (by omega)
  have hc := copyOperands_eq (n := n) (w := (w.memWrite (zext16 t)).advance 1) (by simpa using hl)
  simp only [headerStep, latchCount_n, hn', he, decEmit]
  refine congrArg _ (endStep_eq_of_same ?_ ?_ ?_ ?_ ?_) <;> try rfl
  simp only [setOp_op, latchCount_t, latchOpcode_t, latch_opcode, hc]
  simp

/-- A header step whose header fails a check (41_decoder.md R88, R89). -/
theorem headerStep_error {h : Word} {t : Opcode} {n : Nat} {w : DecWork} {s : State} {e : ErrorInfo} (hn : n < 16)
    (hs : s.op = .dec w) (he : headerError w.j n w.input.length = some e) :
    headerStep h t n w s =
      .next (s.setOp (.dec { w with out := Config.freeOut s.fresh, st := .fault e.code e })).endStep := by
  have hn' : (BitVec.ofNat 4 n).toNat = n := by
    rw [BitVec.toNat_ofNat]; exact Nat.mod_eq_of_lt (by omega)
  simp only [headerStep, latchCount_n, hn', he]
  refine congrArg _ (endStep_eq_of_same ?_ ?_ ?_ ?_ ?_) <;> simp [hs, Operation.raise]

/-- Everything a header step can do: it always completes, by one of its two outcomes. -/
theorem headerStep_cases (h : Word) (t : Opcode) {n : Nat} {w : DecWork} {s : State} (hn : n < 16)
    (hs : s.op = .dec w) :
    (headerError w.j n w.input.length = none ∧
      headerStep h t n w s = .next (s.setOp (.dec { w with
        j := w.j + 1 + n, out := w.out ++ zext16 t :: operandWords w.input (w.j + 1) n })).endStep) ∨
    (∃ e, headerError w.j n w.input.length = some e ∧
      headerStep h t n w s =
      .next (s.setOp (.dec { w with out := Config.freeOut s.fresh, st := .fault e.code e })).endStep) := by
  cases he : headerError w.j n w.input.length with
  | none => exact .inl ⟨rfl, headerStep_ok hn he⟩
  | some e => exact .inr ⟨e, rfl, headerStep_error hn hs he⟩

/-- Where a header step is due, it runs its body (41_decoder.md R83). -/
theorem onHeaderStep_due {body : DecWork → StepOutcome} {s : State} {w : DecWork} (hs : s.op = .dec w)
    (hst : w.st = .run) (hj : w.j < w.input.length) : onHeaderStep body s = body w := by
  simp [onHeaderStep, hs, hst, hj]

/-- Everything `onHeaderStep` can do when it answers a next state. -/
theorem onHeaderStep_next {body : DecWork → StepOutcome} {s t : State} (h : onHeaderStep body s = .next t) :
    ∃ w, s.op = .dec w ∧ w.st = .run ∧ w.j < w.input.length ∧ body w = .next t := by
  unfold onHeaderStep at h
  split at h
  · cases h
  · cases h
  · next w hw =>
    split at h
    · next hst =>
      split at h
      · next hj => exact ⟨w, hw, hst, hj, h⟩
      · cases h
    · cases h
    · cases h

/-- The header classes run the shared header step with their own count. -/
theorem execHeader_due {n : Nat} {rsv : Rsv} {t : Opcode} {s : State} {w : DecWork} (hs : s.op = .dec w)
    (hst : w.st = .run) (hj : w.j < w.input.length) :
    execHeader n rsv t s = headerStep (makeHeader rsv (BitVec.ofNat 4 n) t) t n w s :=
  onHeaderStep_due hs hst hj

/-! ### Accepting and responding -/

theorem acceptWith_admitted {len : Nat} {start s : State} (h : s.params.admits len = true) :
    s.acceptWith len start = .next start.endStep := by simp [State.acceptWith, h]

theorem acceptWith_refused {len : Nat} {start s : State} (h : s.params.admits len = false) :
    s.acceptWith len start = .refused (.overLongRequest len) := by simp [State.acceptWith, h]

theorem respond_ready {s : State} {r : Response} (h : s.op.response = some r) :
    s.respond = .next (s.deliver r).endStep := by simp [State.respond, h]

end Sys2Proof.Machine
end

