-- ==== Sys2Proof/Laws/Encoding.lean ====
section
/-! SUPPORT. The fields of a header as numbers, of a header made of its fields, and a header as made of its fields
(30_encoding.md R50 to R52). -/

namespace Sys2Proof

theorem hdrType_toNat (h : Word) : (hdrType h).toNat = h.toNat % 256 := by
  simp [hdrType]

theorem hdrCnt_toNat (h : Word) : (hdrCnt h).toNat = h.toNat / 256 % 16 := by
  simp [hdrCnt, Nat.shiftRight_eq_div_pow]

theorem hdrRsv_toNat (h : Word) : (hdrRsv h).toNat = h.toNat / 4096 := by
  have := h.isLt
  simp [hdrRsv, Nat.shiftRight_eq_div_pow]
  omega

theorem makeHeader_toNat (rsv : Rsv) (n : Count) (t : Opcode) :
    (makeHeader rsv n t).toNat = rsv.toNat * 4096 + n.toNat * 256 + t.toNat := by
  have h1 := Nat.shiftLeft_add_eq_or_of_lt n.isLt rsv.toNat
  have h2 := Nat.shiftLeft_add_eq_or_of_lt t.isLt (rsv.toNat <<< 4 + n.toNat)
  simp only [makeHeader, BitVec.toNat_append, ← h1, ← h2]
  simp only [Nat.shiftLeft_eq]
  omega

@[simp] theorem hdrType_makeHeader (rsv : Rsv) (n : Count) (t : Opcode) : hdrType (makeHeader rsv n t) = t := by
  apply BitVec.eq_of_toNat_eq
  have := t.isLt
  rw [hdrType_toNat, makeHeader_toNat]; omega

@[simp] theorem hdrCnt_makeHeader (rsv : Rsv) (n : Count) (t : Opcode) : hdrCnt (makeHeader rsv n t) = n := by
  apply BitVec.eq_of_toNat_eq
  have := t.isLt
  have := n.isLt
  rw [hdrCnt_toNat, makeHeader_toNat]; omega

@[simp] theorem hdrRsv_makeHeader (rsv : Rsv) (n : Count) (t : Opcode) : hdrRsv (makeHeader rsv n t) = rsv := by
  apply BitVec.eq_of_toNat_eq
  have := t.isLt
  have := n.isLt
  rw [hdrRsv_toNat, makeHeader_toNat]; omega

theorem makeHeader_fields (h : Word) : makeHeader (hdrRsv h) (hdrCnt h) (hdrType h) = h := by
  apply BitVec.eq_of_toNat_eq
  rw [makeHeader_toNat, hdrRsv_toNat, hdrCnt_toNat, hdrType_toNat]
  omega

/-- A unit is determined by its three fields. -/
theorem header_ext {h h' : Word} (hr : hdrRsv h = hdrRsv h') (hn : hdrCnt h = hdrCnt h')
    (ht : hdrType h = hdrType h') : h = h' := by
  rw [← makeHeader_fields h, ← makeHeader_fields h', hr, hn, ht]

/-- A payload of 16-bit units is carried without loss. -/
@[simp] theorem map_ofNat_toNat (s : List Word) : (s.map BitVec.toNat).map (BitVec.ofNat 16) = s := by
  simp [List.map_map, Function.comp_def]

theorem streamRequest_wf (s : List Word) : (Request.mk 1 (s.map BitVec.toNat)).wf = true := by
  simp [Request.wf]
  intro w _
  exact w.isLt

end Sys2Proof
end

