-- ==== Sys2Proof/Laws/PerInstr.lean ====
section
/-! SUPPORT. Per-instruction laws: every instruction's encoding is matched by the mask and match of its own row of
spec/opcode_table.json. -/

namespace Sys2Proof.Laws

/-- The word a fetched item has in the opcode table: the command bit, or the unit. -/
def rowWord : Fetched → Nat
  | .request r => r.cmd.toNat
  | .header h => h.toNat
  | .operand w => w.toNat

/-- The row's mask and match (spec/opcode_table.json). -/
def rowMaskMatch : Instr → Nat × Nat
  | .encode _ => (0x1, 0x0)
  | .decode _ => (0x1, 0x1)
  | .h0 _ _ => (0x0F00, 0x0000)
  | .h1 _ _ => (0x0F00, 0x0100)
  | .h2 _ _ => (0x0F00, 0x0200)
  | .h3 _ _ => (0x0F00, 0x0300)
  | .illegalCnt4 _ _ => (0x0F00, 0x0400)
  | .illegalCnt5 _ _ => (0x0F00, 0x0500)
  | .illegalCnt6 _ _ => (0x0F00, 0x0600)
  | .illegalCnt7 _ _ => (0x0F00, 0x0700)
  | .illegalCnt8 _ _ => (0x0F00, 0x0800)
  | .illegalCnt9 _ _ => (0x0F00, 0x0900)
  | .illegalCnt10 _ _ => (0x0F00, 0x0A00)
  | .illegalCnt11 _ _ => (0x0F00, 0x0B00)
  | .illegalCnt12 _ _ => (0x0F00, 0x0C00)
  | .illegalCnt13 _ _ => (0x0F00, 0x0D00)
  | .illegalCnt14 _ _ => (0x0F00, 0x0E00)
  | .illegalCnt15 _ _ => (0x0F00, 0x0F00)
  | .operandWord _ => (0x0000, 0x0000)

/-- Masking a word of 16 bits with `0x0F00` keeps the count field and nothing else. -/
theorem and_0F00 (x : Nat) : x &&& 0x0F00 = (x / 256 % 16) * 256 := by
  have h : x &&& 0x0F00 = ((x >>> 8) &&& 0xF) <<< 8 := by
    apply Nat.eq_of_testBit_eq
    intro i
    simp only [Nat.testBit_and, Nat.testBit_shiftLeft, Nat.testBit_shiftRight]
    by_cases hi : 8 ≤ i
    · have h1 : (0x0F00 : Nat) = 0xF <<< 8 := by decide
      rw [h1, Nat.testBit_shiftLeft]
      have : 8 + (i - 8) = i := by omega
      simp [hi, this]
    · have h1 : (0x0F00 : Nat) = 0xF <<< 8 := by decide
      rw [h1, Nat.testBit_shiftLeft]
      simp [hi]
  rw [h, Nat.shiftRight_eq_div_pow, Nat.shiftLeft_eq]
  have : (x / 2 ^ 8) &&& 0xF = x / 2 ^ 8 % 2 ^ 4 := Nat.and_two_pow_sub_one_eq_mod _ 4
  rw [this]; norm_num

/-- A header made with count `n` is matched by the row of count `n`. -/
theorem makeHeader_row (rsv : Rsv) (n : Count) (t : Opcode) :
    (makeHeader rsv n t).toNat &&& 0x0F00 = n.toNat * 256 := by
  have := n.isLt
  have := t.isLt
  rw [and_0F00, makeHeader_toNat]
  omega

namespace TableRow

/-- The instruction's encoding, masked as its row says, is its row's match. -/
def Statement (i : Instr) : Prop :=
  rowWord (encode i) &&& (rowMaskMatch i).1 = (rowMaskMatch i).2

theorem encode (p : List Nat) : Statement (.encode p) := by simp [Statement, rowWord, rowMaskMatch, Sys2Proof.encode]
theorem decode (s : List Word) : Statement (.decode s) := by simp [Statement, rowWord, rowMaskMatch, Sys2Proof.encode]
theorem h0 (rsv : Rsv) (t : Opcode) : Statement (.h0 rsv t) := makeHeader_row rsv 0 t
theorem h1 (rsv : Rsv) (t : Opcode) : Statement (.h1 rsv t) := makeHeader_row rsv 1 t
theorem h2 (rsv : Rsv) (t : Opcode) : Statement (.h2 rsv t) := makeHeader_row rsv 2 t
theorem h3 (rsv : Rsv) (t : Opcode) : Statement (.h3 rsv t) := makeHeader_row rsv 3 t
theorem illegalCnt4 (rsv : Rsv) (t : Opcode) : Statement (.illegalCnt4 rsv t) := makeHeader_row rsv 4 t
theorem illegalCnt5 (rsv : Rsv) (t : Opcode) : Statement (.illegalCnt5 rsv t) := makeHeader_row rsv 5 t
theorem illegalCnt6 (rsv : Rsv) (t : Opcode) : Statement (.illegalCnt6 rsv t) := makeHeader_row rsv 6 t
theorem illegalCnt7 (rsv : Rsv) (t : Opcode) : Statement (.illegalCnt7 rsv t) := makeHeader_row rsv 7 t
theorem illegalCnt8 (rsv : Rsv) (t : Opcode) : Statement (.illegalCnt8 rsv t) := makeHeader_row rsv 8 t
theorem illegalCnt9 (rsv : Rsv) (t : Opcode) : Statement (.illegalCnt9 rsv t) := makeHeader_row rsv 9 t
theorem illegalCnt10 (rsv : Rsv) (t : Opcode) : Statement (.illegalCnt10 rsv t) := makeHeader_row rsv 10 t
theorem illegalCnt11 (rsv : Rsv) (t : Opcode) : Statement (.illegalCnt11 rsv t) := makeHeader_row rsv 11 t
theorem illegalCnt12 (rsv : Rsv) (t : Opcode) : Statement (.illegalCnt12 rsv t) := makeHeader_row rsv 12 t
theorem illegalCnt13 (rsv : Rsv) (t : Opcode) : Statement (.illegalCnt13 rsv t) := makeHeader_row rsv 13 t
theorem illegalCnt14 (rsv : Rsv) (t : Opcode) : Statement (.illegalCnt14 rsv t) := makeHeader_row rsv 14 t
theorem illegalCnt15 (rsv : Rsv) (t : Opcode) : Statement (.illegalCnt15 rsv t) := makeHeader_row rsv 15 t
theorem operandWord (v : Word) : Statement (.operandWord v) := by simp [Statement, rowMaskMatch]

end TableRow

end Sys2Proof.Laws
end

