-- ==== Sys2Proof/Laws/Step.lean ====
section
/-! SUPPORT. What one step serves, said once: the fetch by phase, the decoding of what is fetched, the step as the
execution of it, and the inversion lemmas of the commands. -/

namespace Sys2Proof.Machine

theorem decode_inProgress_encode (p : List Nat) : decode (encode (.encode p)) = .ok (.encode p) := by
  simp [encode, decode, decodeRequest]

theorem decode_inProgress_decode (u : List Word) : decode (encode (.decode u)) = .ok (.decode u) := by
  simp only [encode, decode, decodeRequest]
  rw [if_neg (by decide), if_pos (streamRequest_wf u), map_ofNat_toNat]

/-- IDLE with a request the decoder reads: the request is taken from the port and executed. -/
theorem step_idle_request {s : State} {r : Request} {rest : List Request} {i : Instr} (hs : s.op = .idle)
    (hq : s.offered = r :: rest) (hd : decode (.request r) = .ok i) :
    step s = exec i { s with offered := rest } := by
  simp [step, fetch, afterFetch, hs, hq, hd]

/-- IDLE with a request outside the domain of the port. -/
theorem step_idle_reject {s : State} {r : Request} {rest : List Request} {e : Reject} (hs : s.op = .idle)
    (hq : s.offered = r :: rest) (hd : decode (.request r) = .error e) :
    step s = .refused (rejectRefusal e) := by
  simp [step, fetch, hs, hq, hd]

/-- IDLE with nothing offered. -/
theorem step_idle_wait {s : State} (hs : s.op = .idle) (hq : s.offered = []) : step s = .next s := by
  simp [step, fetch, hs, hq]

/-- BUSY_ENC: the next step of the ENCODE in progress. -/
theorem step_enc {s : State} {w : EncWork} (hs : s.op = .enc w) : step s = exec (.encode w.input) s := by
  simp only [step, fetch, afterFetch, hs, decode_inProgress_encode]

/-- BUSY_DEC with a header step due: the header at the cursor. -/
theorem step_dec_header {s : State} {w : DecWork} {h : Word} (hs : s.op = .dec w) (hst : w.st = .run)
    (hh : w.input[w.j]? = some h) : step s = exec (decodeHeader h) s := by
  simp only [step, fetch, afterFetch, hs, hst, memRead, hh, decode]

/-- BUSY_DEC with no header step due: the next step of the DECODE in progress. -/
theorem step_dec_other {s : State} {w : DecWork} (hs : s.op = .dec w)
    (h : w.st ≠ .run ∨ w.input.length ≤ w.j) : step s = exec (.decode w.input) s := by
  cases hst : w.st with
  | run =>
    have hj : w.input[w.j]? = none := by
      rcases h with h | h
      · exact absurd hst h
      · exact List.getElem?_eq_none h
    simp only [step, fetch, afterFetch, hs, hst, memRead, hj, decode_inProgress_decode]
  | done => simp only [step, fetch, afterFetch, hs, hst, decode_inProgress_decode]
  | fault c e => simp only [step, fetch, afterFetch, hs, hst, decode_inProgress_decode]

/-- A header unit is executed by the header class of its count, with its own fields. -/
theorem exec_decodeHeader (h : Word) (s : State) :
    exec (decodeHeader h) s = execHeader (hdrCnt h).toNat (hdrRsv h) (hdrType h) s := by
  have hlt := (hdrCnt h).isLt
  unfold decodeHeader
  generalize (hdrCnt h).toNat = n at hlt ⊢
  interval_cases n <;> rfl

/-- Every header step of a DECODE in progress, whichever class the header has. -/
theorem exec_decodeHeader_due {h : Word} {s : State} {w : DecWork} (hs : s.op = .dec w) (hst : w.st = .run)
    (hj : w.j < w.input.length) :
    exec (decodeHeader h) s = headerStep h (hdrType h) (hdrCnt h).toNat w s := by
  have hm : makeHeader (hdrRsv h) (BitVec.ofNat 4 (hdrCnt h).toNat) (hdrType h) = h := by
    simpa using makeHeader_fields h
  rw [exec_decodeHeader, execHeader_due hs hst hj, hm]

end Sys2Proof.Machine
end

