-- ==== Sys2Proof/Laws/StepCases.lean ====
section
/-! SUPPORT. Inversion: everything an instruction, and everything a step, can do when it answers a next state, guards
included. Later proofs take these cases apart and do not unfold the meanings. -/

namespace Sys2Proof.Machine

/-- A record step that answers a next state emits its record or raises (40_encoder.md R67). -/
theorem encRec_next {w : EncWork} {s t : State} (hs : s.op = .enc w) (h : encRec w s = .next t) :
    ∃ x a b c, readRecord w.input w.i = some (x, a, b, c) ∧
      ((recordError (w.i / 4) x a b c = none ∧
        t = (s.setOp (.enc { w with i := w.i + 4, out := w.out ++ recordUnits x a b c })).endStep) ∨
       (∃ e, recordError (w.i / 4) x a b c = some e ∧
        t = (s.setOp (.enc { w with out := Config.freeOut s.fresh, st := .fault e.code e })).endStep)) := by
  cases hr : readRecord w.input w.i with
  | none => simp [encRec, hr] at h
  | some r =>
    obtain ⟨x, a, b, c⟩ := r
    refine ⟨x, a, b, c, rfl, ?_⟩
    cases he : recordError (w.i / 4) x a b c with
    | none => rw [encRec_ok hr he] at h; cases h; exact .inl ⟨rfl, rfl⟩
    | some e => rw [encRec_error hr hs he] at h; cases h; exact .inr ⟨e, rfl, rfl⟩

/-- A response step delivers the response that is ready (10_state.md R23). -/
theorem respond_next {s t : State} (h : s.respond = .next t) :
    ∃ r, s.op.response = some r ∧ t = (s.deliver r).endStep := by
  unfold State.respond at h
  split at h
  · next r hr => cases h; exact ⟨r, hr, rfl⟩
  · cases h

/-- An acceptance that answers a next state has started its operation. -/
theorem acceptWith_next {len : Nat} {start s t : State} (h : s.acceptWith len start = .next t) :
    s.params.admits len = true ∧ t = start.endStep := by
  cases ha : s.params.admits len with
  | false => rw [acceptWith_refused ha] at h; cases h
  | true => rw [acceptWith_admitted ha] at h; cases h; exact ⟨rfl, rfl⟩

/-- The operation that an accepted ENCODE starts (40_encoder.md R66). -/
def startedEncode (p : List Nat) (s : State) : EncWork :=
  if p.length % 4 ≠ 0 then ⟨p, 0, Config.freeOut s.fresh, .fault 5 (.raggedProgram p.length)⟩ else ⟨p, 0, [], .run⟩

/-- An accepted ENCODE has started its operation (40_encoder.md R66). -/
theorem encAccept_next {p : List Nat} {s t : State} (h : encAccept p s = .next t) :
    s.params.admits p.length = true ∧ t = (s.setOp (.enc (startedEncode p s))).endStep := by
  obtain ⟨ha, rfl⟩ := acceptWith_next h
  refine ⟨ha, congrArg _ ?_⟩
  by_cases hp : p.length % 4 ≠ 0
  · rw [if_pos ((raggedLength_iff _).2 hp), startedEncode, if_pos hp]; rfl
  · rw [if_neg (mt (raggedLength_iff _).1 hp), startedEncode, if_neg hp]

/-- Everything ENCODE can do. -/
theorem execEncode_next {p : List Nat} {s t : State} (h : exec (.encode p) s = .next t) :
    (s.op = .idle ∧ s.params.admits p.length = true ∧ t = (s.setOp (.enc (startedEncode p s))).endStep) ∨
    (∃ w, s.op = .enc w ∧ w.input = p ∧
      ((w.st = .run ∧ w.i < w.input.length ∧ encRec w s = .next t) ∨
       (w.st = .run ∧ w.i = w.input.length ∧ t = (s.setOp (.enc { w with st := .done })).endStep) ∨
       (∃ r, w.st.response w.out = some r ∧ t = (s.deliver r).endStep))) := by
  cases hs : s.op with
  | idle =>
    simp only [exec, execEncode, hs] at h
    exact .inl ⟨rfl, encAccept_next h⟩
  | dec w => simp [exec, execEncode, hs] at h
  | enc w =>
    simp only [exec, execEncode, hs] at h
    split at h
    · next hp =>
      have resp (h : s.respond = .next t) : ∃ r, w.st.response w.out = some r ∧ t = (s.deliver r).endStep := by
        simpa only [hs, Operation.response] using respond_next h
      refine .inr ⟨w, rfl, hp, ?_⟩
      cases hst : w.st with
      | run =>
        simp only [hst] at h
        split at h
        · next hi => exact .inl ⟨rfl, hi, h⟩
        · split at h
          · next hi => simp only [encEnd] at h; cases h; exact .inr (.inl ⟨rfl, hi, rfl⟩)
          · cases h
      | done => rw [hst] at h resp; exact .inr (.inr (resp h))
      | fault c e => rw [hst] at h resp; exact .inr (.inr (resp h))
    · cases h

/-- Everything DECODE can do. -/
theorem execDecode_next {u : List Word} {s t : State} (h : exec (.decode u) s = .next t) :
    (s.op = .idle ∧ s.params.admits u.length = true ∧ t = (s.setOp (.dec ⟨u, 0, [], .run⟩)).endStep) ∨
    (∃ w, s.op = .dec w ∧ w.input = u ∧
      ((∃ x, w.st = .run ∧ w.input[w.j]? = some x ∧
          headerStep x (hdrType x) (hdrCnt x).toNat w s = .next t) ∨
       (w.st = .run ∧ w.j = w.input.length ∧ t = (s.setOp (.dec { w with st := .done })).endStep) ∨
       (∃ r, w.st.response w.out = some r ∧ t = (s.deliver r).endStep))) := by
  cases hs : s.op with
  | idle =>
    simp only [exec, execDecode, hs] at h
    exact .inl ⟨rfl, acceptWith_next h⟩
  | enc w => simp [exec, execDecode, hs] at h
  | dec w =>
    simp only [exec, execDecode, hs] at h
    split at h
    · next hp =>
      have resp (h : s.respond = .next t) : ∃ r, w.st.response w.out = some r ∧ t = (s.deliver r).endStep := by
        simpa only [hs, Operation.response] using respond_next h
      refine .inr ⟨w, rfl, hp, ?_⟩
      cases hst : w.st with
      | run =>
        simp only [hst] at h
        split at h
        · next hi =>
          simp only [decRec, memRead, List.getElem?_eq_getElem hi] at h
          exact .inl ⟨_, rfl, List.getElem?_eq_getElem hi, h⟩
        · split at h
          · next hi => simp only [decEnd] at h; cases h; exact .inr (.inl ⟨rfl, hi, rfl⟩)
          · cases h
      | done => rw [hst] at h resp; exact .inr (.inr (resp h))
      | fault c e => rw [hst] at h resp; exact .inr (.inr (resp h))
    · cases h

/-- What a header or operand word may leave behind: a record written, an error, or one word copied. -/
def WordResult (w : DecWork) (s t : State) : Prop :=
  (∃ n opcode, n < 16 ∧ w.j + 1 + n ≤ w.input.length ∧
    t = (s.setOp (.dec { w with
      j := w.j + 1 + n, out := w.out ++ zext16 opcode :: operandWords w.input (w.j + 1) n })).endStep) ∨
  (∃ e : ErrorInfo,
    t = (s.setOp (.dec { w with out := Config.freeOut s.fresh, st := .fault e.code e })).endStep) ∨
  (∃ v, t = (s.setOp (.dec (w.copyOperand v))).endStep)

/-- Everything a header of any class can do. -/
theorem execHeader_next {n : Nat} {rsv : Rsv} {opcode : Opcode} {s t : State} (hn : n < 16)
    (h : execHeader n rsv opcode s = .next t) :
    ∃ w, s.op = .dec w ∧ w.st = .run ∧ w.j < w.input.length ∧ WordResult w s t := by
  obtain ⟨w, hs, hst, hj, h⟩ := onHeaderStep_next h
  refine ⟨w, hs, hst, hj, ?_⟩
  rcases headerStep_cases (makeHeader rsv (BitVec.ofNat 4 n) opcode) opcode hn hs with ⟨he, q⟩ | ⟨e, -, q⟩
  · rw [q] at h; cases h; exact .inl ⟨n, opcode, hn, (headerError_eq_none.1 he).2, rfl⟩
  · rw [q] at h; cases h; exact .inr (.inl ⟨e, rfl⟩)

/-- Everything a header or operand word can do. -/
theorem execWord_next {i : Instr} {s t : State} (hp : ∀ p, i ≠ .encode p) (hu : ∀ u, i ≠ .decode u)
    (h : exec i s = .next t) :
    ∃ w, s.op = .dec w ∧ w.st = .run ∧ w.j < w.input.length ∧ WordResult w s t := by
  cases i with
  | encode p => exact absurd rfl (hp p)
  | decode u => exact absurd rfl (hu u)
  | operandWord v =>
    obtain ⟨w, hs, hst, hj, h⟩ := onHeaderStep_next h
    cases h
    exact ⟨w, hs, hst, hj, .inr (.inr ⟨v, rfl⟩)⟩
  | _ => exact execHeader_next (by decide) h

/-- What a step of a busy encoder leaves behind (10_state.md R29(b), (c)). -/
def EncResult (w : EncWork) (s t : State) : Prop :=
  (∃ x a b c, w.st = .run ∧ readRecord w.input w.i = some (x, a, b, c) ∧
    recordError (w.i / 4) x a b c = none ∧
    t = (s.setOp (.enc { w with i := w.i + 4, out := w.out ++ recordUnits x a b c })).endStep) ∨
  (∃ x a b c e, w.st = .run ∧ readRecord w.input w.i = some (x, a, b, c) ∧
    recordError (w.i / 4) x a b c = some e ∧
    t = (s.setOp (.enc { w with out := Config.freeOut s.fresh, st := .fault e.code e })).endStep) ∨
  (w.st = .run ∧ w.i = w.input.length ∧ t = (s.setOp (.enc { w with st := .done })).endStep) ∨
  (∃ r, w.st.response w.out = some r ∧ t = (s.deliver r).endStep)

/-- What a step of a busy decoder leaves behind. -/
def DecResult (w : DecWork) (s t : State) : Prop :=
  (∃ x, w.st = .run ∧ w.input[w.j]? = some x ∧ headerError w.j (hdrCnt x).toNat w.input.length = none ∧
    t = (s.setOp (.dec { w with
      j := w.j + 1 + (hdrCnt x).toNat
      out := w.out ++ zext16 (hdrType x) :: operandWords w.input (w.j + 1) (hdrCnt x).toNat })).endStep) ∨
  (∃ x e, w.st = .run ∧ w.input[w.j]? = some x ∧ headerError w.j (hdrCnt x).toNat w.input.length = some e ∧
    t = (s.setOp (.dec { w with out := Config.freeOut s.fresh, st := .fault e.code e })).endStep) ∨
  (w.st = .run ∧ w.j = w.input.length ∧ t = (s.setOp (.dec { w with st := .done })).endStep) ∨
  (∃ r, w.st.response w.out = some r ∧ t = (s.deliver r).endStep)

/-- What an IDLE instance's step leaves behind (10_state.md R29(a)). -/
def IdleResult (s t : State) : Prop :=
  (s.offered = [] ∧ t = s) ∨
  (∃ r rest p, s.offered = r :: rest ∧ decode (.request r) = .ok (.encode p) ∧
    s.params.admits p.length = true ∧
    t = (({ s with offered := rest } : State).setOp (.enc (startedEncode p s))).endStep) ∨
  (∃ r rest u, s.offered = r :: rest ∧ decode (.request r) = .ok (.decode u) ∧
    s.params.admits u.length = true ∧
    t = (({ s with offered := rest } : State).setOp (.dec ⟨u, 0, [], .run⟩)).endStep)

/-- A request decodes to one of the two commands (10_state.md R14). -/
theorem decodeRequest_command {r : Request} {i : Instr} (h : decode (.request r) = .ok i) :
    (∃ p, i = .encode p) ∨ (∃ u, i = .decode u) := by
  simp only [decode, decodeRequest] at h
  split at h
  · cases h; exact .inl ⟨_, rfl⟩
  · split at h
    · cases h; exact .inr ⟨_, rfl⟩
    · cases h

theorem step_idle_next {s t : State} (hs : s.op = .idle) (h : step s = .next t) : IdleResult s t := by
  cases hq : s.offered with
  | nil => rw [step_idle_wait hs hq] at h; cases h; exact .inl ⟨hq, rfl⟩
  | cons r rest =>
    cases hd : decode (.request r) with
    | error e => rw [step_idle_reject hs hq hd] at h; cases h
    | ok i =>
      rw [step_idle_request hs hq hd] at h
      rcases decodeRequest_command hd with ⟨p, rfl⟩ | ⟨u, rfl⟩
      · rcases execEncode_next h with ⟨-, ha, ht⟩ | ⟨w, hw, -⟩
        · exact .inr (.inl ⟨r, rest, p, hq, hd, ha, ht⟩)
        · simp [hs] at hw
      · rcases execDecode_next h with ⟨-, ha, ht⟩ | ⟨w, hw, -⟩
        · exact .inr (.inr ⟨r, rest, u, hq, hd, ha, ht⟩)
        · simp [hs] at hw

theorem step_enc_next {s t : State} {w : EncWork} (hs : s.op = .enc w) (h : step s = .next t) :
    EncResult w s t := by
  rw [step_enc hs] at h
  rcases execEncode_next h with ⟨hi, -⟩ | ⟨w', hw, -, hc⟩
  · simp [hs] at hi
  · rw [hs] at hw; cases hw
    rcases hc with ⟨hst, -, h⟩ | h | h
    · obtain ⟨x, a, b, c, hr, ⟨he, ht⟩ | ⟨e, he, ht⟩⟩ := encRec_next hs h
      · exact .inl ⟨x, a, b, c, hst, hr, he, ht⟩
      · exact .inr (.inl ⟨x, a, b, c, e, hst, hr, he, ht⟩)
    · exact .inr (.inr (.inl h))
    · exact .inr (.inr (.inr h))

/-- A header step of a busy decoder, as one of its results. -/
theorem headerStep_result {x : Word} {s t : State} {w : DecWork} (hs : s.op = .dec w) (hst : w.st = .run)
    (hx : w.input[w.j]? = some x) (h : headerStep x (hdrType x) (hdrCnt x).toNat w s = .next t) :
    DecResult w s t := by
  rcases headerStep_cases x (hdrType x) (hdrCnt x).isLt hs with ⟨he, q⟩ | ⟨e, he, q⟩
  · rw [q] at h; cases h; exact .inl ⟨x, hst, hx, he, rfl⟩
  · rw [q] at h; cases h; exact .inr (.inl ⟨x, e, hst, hx, he, rfl⟩)

theorem step_dec_next {s t : State} {w : DecWork} (hs : s.op = .dec w) (h : step s = .next t) :
    DecResult w s t := by
  by_cases hd : w.st = .run ∧ w.j < w.input.length
  · have hx := List.getElem?_eq_getElem hd.2
    rw [step_dec_header hs hd.1 hx, exec_decodeHeader_due hs hd.1 hd.2] at h
    exact headerStep_result hs hd.1 hx h
  · have hno : w.st ≠ .run ∨ w.input.length ≤ w.j := by
      by_cases hst : w.st = .run
      · exact .inr (Nat.le_of_not_lt fun hj => hd ⟨hst, hj⟩)
      · exact .inl hst
    rw [step_dec_other hs hno] at h
    rcases execDecode_next h with ⟨hi, -⟩ | ⟨w', hw, -, hc⟩
    · simp [hs] at hi
    · rw [hs] at hw; cases hw
      rcases hc with ⟨x, hst, hx, h⟩ | h | h
      · exact headerStep_result hs hst hx h
      · exact .inr (.inr (.inl h))
      · exact .inr (.inr (.inr h))

/-! ### The request port -/

/-- Everything an offer can do when it answers a next state: the request is one the port takes, and is held. -/
theorem offer_next {r : Request} {s t : State} (h : s.offer r = .next t) :
    r.wf = true ∧ s.params.admits r.payload.length = true ∧ t = s.enqueue r := by
  cases hw : r.wf with
  | false => simp [State.offer, hw] at h
  | true =>
    cases ha : s.params.admits r.payload.length with
    | false => simp [State.offer, hw, ha] at h
    | true => simp [State.offer, hw, ha] at h; exact ⟨rfl, rfl, h.symm⟩

theorem offer_taken {r : Request} {s : State} (hw : r.wf = true) (ha : s.params.admits r.payload.length = true) :
    s.offer r = .next (s.enqueue r) := by simp [State.offer, hw, ha]

/-- An admitted port stays admitted when it takes a request. -/
theorem enqueue_admitted {r : Request} {s : State} (hp : s.PortAdmitted) (hw : r.wf = true)
    (ha : s.params.admits r.payload.length = true) : (s.enqueue r).PortAdmitted := by
  intro q hq
  rcases List.mem_append.1 hq with hq | hq
  · exact hp q hq
  · cases List.mem_singleton.1 hq; exact ⟨hw, ha⟩

/-! ### The step -/

/-- Everything a step can do. -/
theorem step_next_cases {s t : State} (h : step s = .next t) :
    (s.op = .idle ∧ IdleResult s t) ∨ (∃ w, s.op = .enc w ∧ EncResult w s t) ∨
    (∃ w, s.op = .dec w ∧ DecResult w s t) := by
  cases hs : s.op with
  | idle => exact .inl ⟨rfl, step_idle_next hs h⟩
  | enc w => exact .inr (.inl ⟨w, rfl, step_enc_next hs h⟩)
  | dec w => exact .inr (.inr ⟨w, rfl, step_dec_next hs h⟩)

end Sys2Proof.Machine
end

