-- ==== Sys2Proof/Laws/Transaction.lean ====
section
/-! SUPPORT. The transaction view over concatenations, and what one record or header adds to a sound working state: the
facts that connect the steps of a command with its transaction (10_state.md R29). -/

namespace Sys2Proof.Machine

/-! ### Lists -/

theorem drop_of_get {α : Type} {l : List α} {k : Nat} {v : α} (h : l[k]? = some v) :
    l.drop k = v :: l.drop (k + 1) := by
  obtain ⟨hlt, rfl⟩ := List.getElem?_eq_some_iff.1 h
  exact List.drop_eq_getElem_cons hlt

theorem lt_of_get {α : Type} {l : List α} {k : Nat} {v : α} (h : l[k]? = some v) : k < l.length :=
  (List.getElem?_eq_some_iff.1 h).1

/-! ### ENCODE -/

/-- The records of a concatenation: those of the first part, then those of the second, numbered on. -/
theorem encodeRecords_append (p q : List Nat) (k : Nat) (hp : p.length % 4 = 0) :
    encodeRecords k (p ++ q) =
      match encodeRecords k p with
      | .error e => .error e
      | .ok e => match encodeRecords (k + p.length / 4) q with
        | .error x => .error x
        | .ok f => .ok (e ++ f) := by
  induction p using recordsOf.induct generalizing k with
  | case1 t a b c rest ih =>
    simp only [List.cons_append, encodeRecords]
    have hl : rest.length % 4 = 0 := by simp at hp; omega
    cases hr : recordError k t a b c with
    | some e => rfl
    | none =>
      simp only [ih (k+1) hl]
      have hk : k + (t :: a :: b :: c :: rest).length / 4 = k + 1 + rest.length / 4 := by simp; omega
      rw [hk]
      cases encodeRecords (k + 1) rest with
      | error e => rfl
      | ok e =>
        simp only
        cases encodeRecords (k + 1 + rest.length / 4) q with
        | error x => rfl
        | ok f => simp
  | case2 p hne =>
    match p, hp, hne with
    | [], _, _ =>
      simp [encodeRecords]; cases encodeRecords k q <;> rfl
    | [_], hp, _ => simp at hp
    | [_, _], hp, _ => simp at hp
    | [_, _, _], hp, _ => simp at hp
    | t :: a :: b :: c :: rest, _, hne => exact absurd rfl (hne t a b c rest)

theorem encodeCommand_of_mod {p : List Nat} (h : p.length % 4 = 0) :
    encodeCommand p = encodeRecords 0 p := by
  unfold encodeCommand
  rw [if_neg (by simpa using h)]

theorem encodeCommand_ok_mod {p : List Nat} {units : List Word} (h : encodeCommand p = .ok units) :
    p.length % 4 = 0 := by
  unfold encodeCommand at h
  split at h
  · cases h
  · next h' => simpa using h'

theorem encodeCommand_append {p q : List Nat} (hp : p.length % 4 = 0) (hq : q.length % 4 = 0) :
    encodeCommand (p ++ q) = match encodeCommand p with
      | .error e => .error e
      | .ok e => match encodeRecords (p.length / 4) q with
        | .error x => .error x
        | .ok f => .ok (e ++ f) := by
  rw [encodeCommand_of_mod (by simp; omega), encodeCommand_of_mod hp, encodeRecords_append p q 0 hp]
  simp

theorem recordError_shift (k r t a b c : Nat) :
    recordError (k + r) t a b c = (recordError k t a b c).map (shiftRecord r) := by
  unfold recordError
  split <;> (try split) <;> (try split) <;> (try split) <;> rfl

/-- The same records numbered `r` further on. -/
theorem encodeRecords_shift (q : List Nat) (hq : q.length % 4 = 0) :
    ∀ k r, encodeRecords (k + r) q =
      match encodeRecords k q with
      | .ok f => .ok f
      | .error e => .error (shiftRecord r e) := by
  induction q using recordsOf.induct with
  | case1 t a b c rest ih =>
    intro k r
    simp only [encodeRecords, recordError_shift]
    cases hr : recordError k t a b c with
    | some e => rfl
    | none =>
      simp only [Option.map_none]
      rw [show k + r + 1 = k + 1 + r by omega, ih (by simp at hq; omega)]
      cases encodeRecords (k + 1) rest <;> rfl
  | case2 p hne =>
    intro k r
    match p, hq, hne with
    | [], _, _ => simp [encodeRecords]
    | [_], hp, _ => simp at hp
    | [_, _], hp, _ => simp at hp
    | [_, _, _], hp, _ => simp at hp
    | t :: a :: b :: c :: rest, _, hne => exact absurd rfl (hne t a b c rest)

theorem recordUnits_length (t a b c : Nat) :
    (recordUnits t a b c).length = 1 + operandCount a b c := by
  have := operandCount_le a b c
  simp [recordUnits, selectOperands]; omega

/-! ### DECODE -/

/-- Units after the end of a stream that decodes, or before its start, change nothing of its records. -/
theorem decodeUnits_shift (c : Nat) (v : List Word) : ∀ (len j skip : Nat) (f : List Word),
    decodeUnits len j skip v = .ok f → decodeUnits (len + c) (j + c) skip v = .ok f := by
  induction v with
  | nil => intro len j skip f h; cases skip <;> simpa [decodeUnits] using h
  | cons x rest ih =>
    intro len j skip f h
    cases skip with
    | succ k =>
      simp only [decodeUnits] at h ⊢
      cases hd : decodeUnits len (j+1) k rest with
      | error e => rw [hd] at h; cases h
      | ok g =>
        rw [hd] at h
        have := ih _ _ _ _ hd
        rw [show j + 1 + c = j + c + 1 by omega] at this
        rw [this]; exact h
    | zero =>
      simp only [decodeUnits] at h ⊢
      cases he : headerError j (hdrCnt x).toNat len with
      | some e => rw [he] at h; cases h
      | none =>
        rw [he] at h
        have : headerError (j + c) (hdrCnt x).toNat (len + c) = none := by
          rw [headerError_eq_none] at he ⊢; omega
        rw [this]
        simp only at h ⊢
        cases hd : decodeUnits len (j+1) (hdrCnt x).toNat rest with
        | error e => rw [hd] at h; cases h
        | ok g =>
          rw [hd] at h
          have := ih _ _ _ _ hd
          rw [show j + 1 + c = j + c + 1 by omega] at this
          rw [this]; exact h

/-- The units of a concatenation whose first part ends at a record boundary. -/
theorem decodeUnits_append (v : List Word) (u : List Word) : ∀ (j skip : Nat) (d : List Word), skip ≤ u.length →
    decodeUnits (j + u.length) j skip u = .ok d →
    decodeUnits (j + u.length + v.length) j skip (u ++ v) =
      match decodeUnits (j + u.length + v.length) (j + u.length) 0 v with
      | .error e => .error e
      | .ok f => .ok (d ++ f) := by
  induction u with
  | nil =>
    intro j skip d hs h
    have : skip = 0 := by simpa using hs
    subst this
    simp [decodeUnits] at h; subst h
    simp; cases decodeUnits (j + v.length) j 0 v <;> rfl
  | cons x rest ih =>
    intro j skip d hs h
    have e1 : j + (x :: rest).length = j + 1 + rest.length := by simp; omega
    rw [e1] at h ⊢
    cases skip with
    | succ k =>
      simp only [decodeUnits, List.cons_append] at h ⊢
      cases hd : decodeUnits (j + 1 + rest.length) (j+1) k rest with
      | error e => rw [hd] at h; cases h
      | ok g =>
        rw [hd] at h; cases h
        rw [ih (j+1) k g (by simpa using hs) hd]
        cases decodeUnits (j + 1 + rest.length + v.length) (j + 1 + rest.length) 0 v <;> simp
    | zero =>
      simp only [decodeUnits, List.cons_append] at h ⊢
      cases he : headerError j (hdrCnt x).toNat (j + 1 + rest.length) with
      | some e => rw [he] at h; cases h
      | none =>
        rw [he] at h
        have he' := headerError_eq_none.1 he
        have : headerError j (hdrCnt x).toNat (j + 1 + rest.length + v.length) = none := by
          rw [headerError_eq_none]; omega
        rw [this]
        simp only at h ⊢
        cases hd : decodeUnits (j + 1 + rest.length) (j+1) (hdrCnt x).toNat rest with
        | error e => rw [hd] at h; cases h
        | ok g =>
          rw [hd] at h; cases h
          rw [ih (j+1) _ g (by omega) hd]
          cases decodeUnits (j + 1 + rest.length + v.length) (j + 1 + rest.length) 0 v <;> simp

theorem decodeCommand_append {u v d : List Word} (h : decodeCommand u = .ok d) :
    decodeCommand (u ++ v) = match decodeUnits (u.length + v.length) u.length 0 v with
      | .error e => .error e
      | .ok f => .ok (d ++ f) := by
  have := decodeUnits_append v u 0 0 d (by simp) (by simpa [decodeCommand] using h)
  simpa [decodeCommand] using this

/-- Operand words are copied. -/
theorem decodeUnits_skip (ws : List Word) :
    ∀ len j, decodeUnits len j ws.length ws = .ok ws := by
  induction ws with
  | nil => intro len j; rfl
  | cons x r ih => intro len j; simp [decodeUnits, ih]

/-- One whole record. -/
theorem decodeCommand_record (x : Word) (ws : List Word) (h : ws.length = (hdrCnt x).toNat)
    (hn : (hdrCnt x).toNat ≤ 3) :
    decodeCommand (x :: ws) = .ok (zext16 (hdrType x) :: ws) := by
  have he : headerError 0 (hdrCnt x).toNat (x :: ws).length = none := by
    rw [headerError_eq_none]; simp; omega
  rw [← h] at he
  simp only [decodeCommand, decodeUnits, ← h, he, decodeUnits_skip]

/-! ### One step of a sound working state -/

/-- The record at the cursor, cut out of the input. -/
theorem take_succ_record {input : List Nat} {i t a b c : Nat} (hr : readRecord input i = some (t, a, b, c)) :
    input = input.take i ++ t :: a :: b :: c :: input.drop (i + 4) ∧
    input.take (i + 4) = input.take i ++ [t, a, b, c] ∧ i + 4 ≤ input.length := by
  obtain ⟨h1, h2, h3, h4⟩ := readRecord_eq_some.1 hr
  have hd : input.drop i = t :: a :: b :: c :: input.drop (i + 4) := by
    rw [drop_of_get h1, drop_of_get h2, drop_of_get h3, drop_of_get h4]
  refine ⟨by rw [← hd, List.take_append_drop], ?_, lt_of_get h4⟩
  rw [List.take_add, hd]; simp

/-- A record step keeps the encoder sound, or its error is the error of the whole program. -/
theorem encSound_step {w : EncWork} {t a b c : Nat} (hs : w.Sound) (hst : w.st = .run)
    (hr : readRecord w.input w.i = some (t, a, b, c)) :
    (recordError (w.i / 4) t a b c = none →
      EncWork.Sound { w with i := w.i + 4, out := w.out ++ recordUnits t a b c }) ∧
    (∀ e, recordError (w.i / 4) t a b c = some e → encodeCommand w.input = .error e) := by
  obtain ⟨h1, h2, h3⟩ := hs
  rw [hst] at h3
  obtain ⟨h3, h4⟩ := h3
  obtain ⟨g1, g2, g3⟩ := take_succ_record hr
  have hl : (w.input.take w.i).length = w.i := by simp; omega
  refine ⟨fun he => ?_, fun e he => ?_⟩
  · refine ⟨?_, ?_, ?_⟩
    · simp; omega
    · exact g3
    · simp only [hst]
      refine ⟨h3, ?_⟩
      rw [g2, encodeCommand_append (by rw [hl]; exact h1) (by simp), h4, hl]
      simp only [encodeRecords, he]
      simp
  · rw [g1, encodeCommand_append (by rw [hl]; exact h1) (by simp; omega), h4, hl]
    simp only [encodeRecords, he]

theorem drop_record {input : List Word} {j : Nat} {x : Word} (hx : input[j]? = some x) :
    input = input.take j ++ x :: input.drop (j + 1) := by
  rw [← drop_of_get hx, List.take_append_drop]

/-- A header step keeps the decoder sound, or its error is the error of the whole stream. -/
theorem decSound_step {w : DecWork} {x : Word} (hs : w.Sound) (hst : w.st = .run)
    (hx : w.input[w.j]? = some x) :
    (headerError w.j (hdrCnt x).toNat w.input.length = none →
      DecWork.Sound { w with
        j := w.j + 1 + (hdrCnt x).toNat
        out := w.out ++ zext16 (hdrType x) :: operandWords w.input (w.j + 1) (hdrCnt x).toNat }) ∧
    (∀ e, headerError w.j (hdrCnt x).toNat w.input.length = some e → decodeCommand w.input = .error e) := by
  obtain ⟨h1, h2⟩ := hs
  rw [hst] at h2
  simp only at h2
  have hl : (w.input.take w.j).length = w.j := by simp; omega
  have hxl := lt_of_get hx
  refine ⟨fun he => ?_, fun e he => ?_⟩
  · obtain ⟨e1, e2⟩ := headerError_eq_none.1 he
    refine ⟨e2, ?_⟩
    simp only [hst]
    have : w.input.take (w.j + 1 + (hdrCnt x).toNat) =
        w.input.take w.j ++ x :: operandWords w.input (w.j + 1) (hdrCnt x).toNat := by
      rw [show w.j + 1 + (hdrCnt x).toNat = w.j + (1 + (hdrCnt x).toNat) by omega, List.take_add,
        drop_of_get hx, Nat.add_comm 1, List.take_succ_cons]
      rfl
    rw [this]
    have hr := decodeCommand_record x _ (operandWords_length e2) e1
    have hs := decodeUnits_shift w.j _ _ _ _ _ hr
    rw [decodeCommand_append h2, hl, Nat.add_comm w.j]
    rw [Nat.zero_add] at hs
    rw [hs]
  · conv_lhs => rw [drop_record hx]
    rw [decodeCommand_append h2, hl]
    have : w.j + (x :: w.input.drop (w.j + 1)).length = w.input.length := by simp; omega
    rw [this]
    simp only [decodeUnits, he]

/-! ### Runs -/

theorem runSteps_succ {s u : State} (k : Nat) (h : step s = .next u) :
    runSteps (k + 1) s = runSteps k u := by
  simp [runSteps, h]

theorem runSteps_add (j : Nat) : ∀ (k : Nat) (s t : State), runSteps k s = .next t →
    runSteps (k + j) s = runSteps j t := by
  intro k
  induction k with
  | zero => intro s t h; cases h; simp
  | succ k ih =>
    intro s t h
    rw [show k + 1 + j = (k + j) + 1 by omega]
    simp only [runSteps] at h ⊢
    cases hst : step s with
    | next u => rw [hst] at h; simp only at h ⊢; exact ih u t h
    | fault f => rw [hst] at h; cases h
    | refused f => rw [hst] at h; cases h

end Sys2Proof.Machine
end

