-- ==== Sys2Proof/Tests/Slice0.lean ====
section
/-! SUPPORT. The model's own tests. Expected values are the spec's: its layouts (30_encoding.md), its vectors
(95_test_vectors.md, EV, DV, AV, W and P) and its worked examples. Then, per obligation with hypotheses, a witness. -/

namespace Sys2Proof.Tests
open Sys2Proof Sys2Proof.Machine

/-! ## Small states and what a test looks at -/

/-- An IDLE instance with these requests offered. -/
def offering (rs : List Request) : State := { State.reset with offered := rs }

/-- An instance performing ENCODE. -/
def encoding (p : List Nat) (i : Nat) (out : List Word) (st : Status) : State :=
  { State.reset with op := .enc ⟨p, i, out, st⟩ }

/-- An instance performing DECODE. -/
def decoding (u : List Word) (j : Nat) (out : List Word) (st : Status) : State :=
  { State.reset with op := .dec ⟨u, j, out, st⟩ }

/-- An IDLE instance whose inputs are at most `m` elements long. -/
def bounded (m : Nat) : State := State.resetWith ⟨some m⟩

/-- The operation after a step. -/
def opAfter : StepOutcome → Option Operation
  | .next t => some t.op
  | .fault _ => none
  | .refused _ => none

/-- The requests held after a step. -/
def offeredAfter : StepOutcome → Option (List Request)
  | .next t => some t.offered
  | .fault _ => none
  | .refused _ => none

/-- The status after a step (`Out` is a free value after a raise). -/
def statusAfter (o : StepOutcome) : Option Status :=
  match opAfter o with
  | some (.enc w) => some w.st
  | some (.dec w) => some w.st
  | _ => none

/-- The responses after a step that leaves the instance IDLE. -/
def responsesAfter : StepOutcome → Option (List Response)
  | .next t => if t.op = .idle then some t.responses else none
  | .fault _ => none
  | .refused _ => none

def refusalOf : StepOutcome → Option Refusal
  | .refused r => some r
  | .next _ => none
  | .fault _ => none

def faultOf : StepOutcome → Option Fault
  | .fault f => some f
  | .next _ => none
  | .refused _ => none

/-! ## WellFormed: every check refuses an ill-formed term -/

theorem test_wf_encode_over_long : Instr.wf ⟨some 4⟩ (.encode [1, 2, 3, 4, 5]) = false := by decide
theorem test_wf_encode_at_limit : Instr.wf ⟨some 4⟩ (.encode [1, 2, 3, 4]) = true := by decide
theorem test_wf_decode_over_long : Instr.wf ⟨some 1⟩ (.decode [0x0101, 0x0000]) = false := by decide
theorem test_wf_decode_unbounded : Instr.wf ⟨none⟩ (.decode [0x0101, 0x0000]) = true := by decide
theorem test_wf_request_element_no_unit : Request.wf ⟨1, [0, 65536]⟩ = false := by decide
theorem test_wf_request_largest_unit : Request.wf ⟨1, [0, 65535]⟩ = true := by decide
theorem test_wf_program_element_unbounded : Request.wf ⟨0, [0, 65536]⟩ = true := by decide

/-! ## Decode: a word of every row, bits 15..12 rsv, 11..8 cnt, 7..0 type (R50) -/

theorem test_decode_encode : decode (.request ⟨0b0, [42, 5, 9, 3]⟩) = .ok (.encode [42, 5, 9, 3]) := by decide
theorem test_decode_decode :
    decode (.request ⟨0b1, [0x032A, 5, 9, 3]⟩) = .ok (.decode [0x032A, 5, 9, 3]) := by decide
theorem test_decode_not_units : decode (.request ⟨0b1, [65536]⟩) = .error .payloadNotUnits := by decide
theorem test_decode_h0 : decode (.header 0b1111_0000_10101011) = .ok (.h0 0xF 0xAB) := by decide
theorem test_decode_h1 : decode (.header 0b1010_0001_11111111) = .ok (.h1 0xA 0xFF) := by decide
theorem test_decode_h2 : decode (.header 0b0000_0010_00000011) = .ok (.h2 0 3) := by decide
theorem test_decode_h3 : decode (.header 0b0000_0011_00101010) = .ok (.h3 0 42) := by decide
theorem test_decode_cnt4 : decode (.header 0b0000_0100_00000001) = .ok (.illegalCnt4 0 1) := by decide
theorem test_decode_cnt5 : decode (.header 0b0001_0101_00000010) = .ok (.illegalCnt5 1 2) := by decide
theorem test_decode_cnt6 : decode (.header 0b0010_0110_00000011) = .ok (.illegalCnt6 2 3) := by decide
theorem test_decode_cnt7 : decode (.header 0b0011_0111_00000100) = .ok (.illegalCnt7 3 4) := by decide
theorem test_decode_cnt8 : decode (.header 0b0100_1000_00000101) = .ok (.illegalCnt8 4 5) := by decide
theorem test_decode_cnt9 : decode (.header 0b0101_1001_00000110) = .ok (.illegalCnt9 5 6) := by decide
theorem test_decode_cnt10 : decode (.header 0b0110_1010_00000111) = .ok (.illegalCnt10 6 7) := by decide
theorem test_decode_cnt11 : decode (.header 0b0111_1011_00001000) = .ok (.illegalCnt11 7 8) := by decide
theorem test_decode_cnt12 : decode (.header 0b1000_1100_00001001) = .ok (.illegalCnt12 8 9) := by decide
theorem test_decode_cnt13 : decode (.header 0b1001_1101_00001010) = .ok (.illegalCnt13 9 10) := by decide
theorem test_decode_cnt14 : decode (.header 0b1010_1110_00001011) = .ok (.illegalCnt14 10 11) := by decide
theorem test_decode_cnt15 : decode (.header 0b1111_1111_11111111) = .ok (.illegalCnt15 15 255) := by decide
theorem test_decode_operand_word : decode (.operand 0b0000_1111_00000000) = .ok (.operandWord 0x0F00) := by decide

/-! ## The host's words: the row of a table word, and the step that runs it -/

theorem test_table_commands :
    decodeTableWord 8 0 = some (.encode []) ∧ decodeTableWord 8 1 = some (.decode []) := by decide

theorem test_table_headers :
    decodeTableWord 16 0x0007 = some (.h0 0 7) ∧ decodeTableWord 16 0x0307 = some (.h3 0 7) ∧
    decodeTableWord 16 0x0407 = some (.illegalCnt4 0 7) ∧ decodeTableWord 16 0xFF07 = some (.illegalCnt15 15 7) := by
  decide

theorem test_fetch_command :
    opAfter (step (State.reset.withFetchWord 8 0)) = some (.enc ⟨[], 0, [], .run⟩) ∧
    opAfter (step (State.reset.withFetchWord 8 1)) = some (.dec ⟨[], 0, [], .run⟩) := by decide

theorem test_fetch_header :
    opAfter (step (State.reset.withFetchWord 16 0x0207)) =
      some (.dec ⟨[0x0207, 0, 0, 0], 3, [7, 0, 0], .run⟩) ∧
    statusAfter (step (State.reset.withFetchWord 16 0x0507)) = some (.fault 4 (.corruptStream 0 5)) := by decide

/-! ## One step of each instruction -/

/-- R67's example. -/
theorem test_encode_record :
    opAfter (step (encoding [0x2A, 5, 9, 3] 0 [] .run)) =
      some (.enc ⟨[0x2A, 5, 9, 3], 4, [0x032A, 0x0005, 0x0009, 0x0003], .run⟩) := by decide

/-- P2, step 3: the second record's opcode. -/
theorem test_encode_error_second_record :
    statusAfter (step (encoding [4, 1, 2, 3, 256, 0, 0, 0] 4 [0x0304, 1, 2, 3] .run)) =
      some (.fault 1 (.opcodeTooLarge 256 1)) := by decide

/-- P2, step 4. -/
theorem test_encode_responds_error :
    responsesAfter (step (encoding [256, 0, 0, 0] 0 [7] (.fault 1 (.opcodeTooLarge 256 0)))) =
      some [.err 1 (.opcodeTooLarge 256 0)] := by decide

/-- R83's example. -/
theorem test_decode_header_step :
    opAfter (step (decoding [0xA1FF, 0x1234] 0 [] .run)) =
      some (.dec ⟨[0xA1FF, 0x1234], 2, [0x00FF, 0x1234], .run⟩) := by decide

/-- P1, steps 5 and 6 of the second request. -/
theorem test_decode_end_and_response :
    opAfter (step (decoding [0x0005] 1 [5] .run)) = some (.dec ⟨[0x0005], 1, [5], .done⟩) ∧
    responsesAfter (step (decoding [0x0005] 1 [5] .done)) = some [.ok [5]] := by decide

/-- R84: `0xF0AB` decodes to `[0x00AB]`, as the last unit too. -/
theorem test_h0 : opAfter (exec (.h0 0xF 0xAB) (decoding [0xF0AB] 0 [] .run)) =
    some (.dec ⟨[0xF0AB], 1, [0x00AB], .run⟩) := by decide

/-- R85's example, and the header as the last unit. -/
theorem test_h1 : opAfter (exec (.h1 0 1) (decoding [0x0101, 0x0000] 0 [] .run)) =
      some (.dec ⟨[0x0101, 0x0000], 2, [1, 0], .run⟩) ∧
    statusAfter (exec (.h1 0 0) (decoding [0x0100] 0 [] .run)) = some (.fault 3 (.truncatedStream 0 1 0)) := by
  decide

/-- R86's examples. -/
theorem test_h2 : opAfter (exec (.h2 0 3) (decoding [0x0203, 0x0000, 0x0006] 0 [] .run)) =
      some (.dec ⟨[0x0203, 0x0000, 0x0006], 3, [3, 0, 6], .run⟩) ∧
    statusAfter (exec (.h2 0 1) (decoding [0x0001, 0x0201, 0x0005] 1 [1] .run)) =
      some (.fault 3 (.truncatedStream 1 2 1)) := by decide

/-- R87's examples. -/
theorem test_h3 : opAfter (exec (.h3 0 42) (decoding [0x032A, 5, 9, 3] 0 [] .run)) =
      some (.dec ⟨[0x032A, 5, 9, 3], 4, [42, 5, 9, 3], .run⟩) ∧
    statusAfter (exec (.h3 0 1) (decoding [0x0301, 1, 2] 0 [] .run)) = some (.fault 3 (.truncatedStream 0 3 2)) := by
  decide

/-- R88: each illegal class names its own count, at the header's position, even with the words present. -/
theorem test_illegal_classes :
    let s := decoding [0x0001, 0x0401, 1, 2, 3, 4] 1 [1] .run
    statusAfter (exec (.illegalCnt4 0 1) s) = some (.fault 4 (.corruptStream 1 4)) ∧
    statusAfter (exec (.illegalCnt5 0 1) s) = some (.fault 4 (.corruptStream 1 5)) ∧
    statusAfter (exec (.illegalCnt6 0 1) s) = some (.fault 4 (.corruptStream 1 6)) ∧
    statusAfter (exec (.illegalCnt7 0 1) s) = some (.fault 4 (.corruptStream 1 7)) ∧
    statusAfter (exec (.illegalCnt8 0 1) s) = some (.fault 4 (.corruptStream 1 8)) ∧
    statusAfter (exec (.illegalCnt9 0 1) s) = some (.fault 4 (.corruptStream 1 9)) ∧
    statusAfter (exec (.illegalCnt10 0 1) s) = some (.fault 4 (.corruptStream 1 10)) ∧
    statusAfter (exec (.illegalCnt11 0 1) s) = some (.fault 4 (.corruptStream 1 11)) ∧
    statusAfter (exec (.illegalCnt12 0 1) s) = some (.fault 4 (.corruptStream 1 12)) ∧
    statusAfter (exec (.illegalCnt13 0 1) s) = some (.fault 4 (.corruptStream 1 13)) ∧
    statusAfter (exec (.illegalCnt14 0 1) s) = some (.fault 4 (.corruptStream 1 14)) ∧
    statusAfter (exec (.illegalCnt15 0 1) s) = some (.fault 4 (.corruptStream 1 15)) := by decide

/-- R53: a word that looks like a bad header is copied. -/
theorem test_operand_word : opAfter (exec (.operandWord 0x0F00) (decoding [0x0101, 0x0F00] 1 [1] .run)) =
    some (.dec ⟨[0x0101, 0x0F00], 2, [1, 0x0F00], .run⟩) := by decide

/-- P6, steps 4 and 5: the response, then the request that was held. -/
theorem test_held_request :
    let s : State := { encoding [1, 0, 0, 0] 4 [0x0001] .done with offered := [⟨1, [0x0100]⟩] }
    offeredAfter (step s) = some [⟨1, [0x0100]⟩] ∧ responsesAfter (step s) = some [.ok [0x0001]] ∧
    opAfter (runSteps 2 s) = some (.dec ⟨[0x0100], 0, [], .run⟩) ∧ offeredAfter (runSteps 2 s) = some [] := by decide

/-- R116: the port refuses an over-long request, and the requests offered before and after it are held (R30). -/
theorem test_over_long_request :
    refusalOf (applyEvent (.offer ⟨0, [1, 0, 0, 0, 0]⟩) (bounded 4)) = some (.overLongRequest 5) ∧
    refusalOf (applyEvent (.offer ⟨1, [65536]⟩) (bounded 4)) = some .payloadNotUnits ∧
    (runEvents [.offer ⟨0, [1, 0, 0, 0]⟩, .offer ⟨0, [1, 0, 0, 0, 0]⟩, .offer ⟨1, [0x0100]⟩] (bounded 4)).offered =
      [⟨0, [1, 0, 0, 0]⟩, ⟨1, [0x0100]⟩] := by decide

/-! ## The spec's vectors -/

/-- EV1 to EV13, EV22. -/
theorem test_encode_vectors_ok :
    encodeCommand [] = .ok [] ∧ encodeCommand [0, 0, 0, 0] = .ok [0x0000] ∧
    encodeCommand [255, 0, 0, 0] = .ok [0x00FF] ∧
    encodeCommand [255, 65535, 65535, 65535] = .ok [0x03FF, 0xFFFF, 0xFFFF, 0xFFFF] ∧
    encodeCommand [1, 65535, 0, 0] = .ok [0x0101, 0xFFFF] ∧ encodeCommand [1, 5, 0, 0] = .ok [0x0101, 0x0005] ∧
    encodeCommand [1, 0, 5, 0] = .ok [0x0101, 0x0000] ∧ encodeCommand [1, 0, 0, 5] = .ok [0x0101, 0x0000] ∧
    encodeCommand [1, 6, 7, 0] = .ok [0x0201, 0x0006, 0x0007] ∧
    encodeCommand [1, 6, 0, 7] = .ok [0x0201, 0x0006, 0x0000] ∧
    encodeCommand [1, 0, 6, 7] = .ok [0x0201, 0x0000, 0x0006] ∧ encodeCommand [0, 0, 0, 1] = .ok [0x0100, 0x0000] ∧
    encodeCommand [16, 0xD800, 0, 0] = .ok [0x0110, 0xD800] ∧
    encodeCommand [1, 0, 0, 0, 2, 5, 0, 0, 3, 0, 6, 7] =
      .ok [0x0001, 0x0102, 0x0005, 0x0203, 0x0000, 0x0006] := by decide

/-- EV14 to EV21. -/
theorem test_encode_vectors_err :
    resultResponse (encodeCommand [256, 0, 0, 0]) = .err 1 (.opcodeTooLarge 256 0) ∧
    resultResponse (encodeCommand [256, 65536, 0, 0]) = .err 1 (.opcodeTooLarge 256 0) ∧
    resultResponse (encodeCommand [1, 70000, 0, 65536]) = .err 2 (.operandTooLarge 70000 0 1) ∧
    resultResponse (encodeCommand [1, 0, 0, 65536]) = .err 2 (.operandTooLarge 65536 0 3) ∧
    resultResponse (encodeCommand [1, 0, 0, 0, 300, 0, 0, 0]) = .err 1 (.opcodeTooLarge 300 1) ∧
    resultResponse (encodeCommand [1, 65536, 0, 0, 300, 0, 0, 0]) = .err 2 (.operandTooLarge 65536 0 1) ∧
    resultResponse (encodeCommand [1, 2, 3]) = .err 5 (.raggedProgram 3) ∧
    resultResponse (encodeCommand [256, 0, 0, 0, 1]) = .err 5 (.raggedProgram 5) := by decide

/-- DV1 to DV9, DV18, and P3. -/
theorem test_decode_vectors_ok :
    decodeCommand [] = .ok [] ∧ decodeCommand [0x0000] = .ok [0] ∧ decodeCommand [0xF001] = .ok [1] ∧
    decodeCommand [0x0101, 0x0000] = .ok [1, 0] ∧ decodeCommand [0xA1FF, 0x1234] = .ok [0x00FF, 0x1234] ∧
    decodeCommand [0x032A, 5, 9, 3] = .ok [42, 5, 9, 3] ∧ decodeCommand [0x0101, 0x0F00] = .ok [1, 0x0F00] ∧
    decodeCommand [0x0000, 0x0000, 0x0000] = .ok [0, 0, 0] ∧
    decodeCommand [0x0301, 1, 2, 3, 2] = .ok [1, 1, 2, 3, 2] ∧
    decodeCommand [0x0001, 0x0102, 0x0005, 0x0203, 0x0000, 0x0006] = .ok [1, 2, 5, 3, 0, 6] ∧
    decodeCommand [0x3107, 0xFFFF, 0x2000, 0x0203, 0x000A, 0x000B] = .ok [7, 0xFFFF, 0, 3, 10, 11] := by decide

/-- DV10 to DV17, and P3's truncated stream. -/
theorem test_decode_vectors_err :
    resultResponse (decodeCommand [0x0100]) = .err 3 (.truncatedStream 0 1 0) ∧
    resultResponse (decodeCommand [0x0301, 1, 2]) = .err 3 (.truncatedStream 0 3 2) ∧
    resultResponse (decodeCommand [0x0001, 0x0201, 0x0005]) = .err 3 (.truncatedStream 1 2 1) ∧
    resultResponse (decodeCommand [0x0401, 1, 2, 3, 4]) = .err 4 (.corruptStream 0 4) ∧
    resultResponse (decodeCommand [0x0C00]) = .err 4 (.corruptStream 0 12) ∧
    resultResponse (decodeCommand [0x0F00]) = .err 4 (.corruptStream 0 15) ∧
    resultResponse (decodeCommand [0x0401]) = .err 4 (.corruptStream 0 4) ∧
    resultResponse (decodeCommand [0x0001, 0x0501]) = .err 4 (.corruptStream 1 5) ∧
    resultResponse (decodeCommand [0x3107, 0xFFFF, 0x2000, 0x0203, 0x000A]) = .err 3 (.truncatedStream 3 2 1) := by
  decide

/-- AV1 to AV8, R106. -/
theorem test_adapter_vectors :
    toBytes [0x0102, 0x0005] .little = [0x02, 0x01, 0x05, 0x00] ∧
    toBytes [0x0102, 0x0005] .big = [0x01, 0x02, 0x00, 0x05] ∧
    fromBytes [0x02, 0x01, 0x05, 0x00] .little = .ok [0x0102, 0x0005] ∧
    fromBytes [0x02, 0x01, 0x05, 0x00] .big = .ok [0x0201, 0x0500] ∧
    fromBytes [0x02, 0x01, 0x05] .little = .error (.oddLengthArtifact 3) ∧
    fromBytes [] .little = .ok [] ∧ fromBytes [] .big = .ok [] ∧
    fromText (toText [0x0110, 0xD800]) = [0x0110, 0xD800] ∧
    fromBuffer (toBuffer [0x0001, 0x0102]) = [0x0001, 0x0102] := by decide

/-- The listing of P3 (R64), and a record list. -/
theorem test_listing :
    streamOf [.hdrRsv 1 3 7, .word 0xFFFF, .hdrRsv 0 2 0, .hdr 2 3, .word 10, .word 11] =
      [0x3107, 0xFFFF, 0x2000, 0x0203, 0x000A, 0x000B] ∧
    streamOf [.bad 4 1] = [0x0401] ∧
    flatProgram [⟨4, 1, 2, 3⟩, ⟨256, 0, 0, 0⟩] = [4, 1, 2, 3, 256, 0, 0, 0] := by decide

/-- R125, R127: a platform after reset; D4: a port of the least width presents the first values out of range. -/
theorem test_platform_and_port :
    (Platform.reset 2 ⟨some 4⟩).wf = true ∧ (Platform.reset 0 ⟨none⟩).wf = false ∧
    (Platform.reset 2 ⟨some 4⟩).instances.map State.phase = [.idle, .idle] ∧
    presentable minInWidth [256, 65536, 0, 131071] = true ∧ presentable minInWidth [131072] = false ∧
    presentable defaultInWidth [4294967295] = true := by decide

/-! ## Witnesses: concrete inputs that meet every hypothesis of a statement, at the boundary values of its clauses -/

theorem witness_EncodeDecodeIsIdentity :
    decode (.header 0xA1FF) = .ok (.h1 0xA 0xFF) ∧ decode (.request ⟨1, [65535]⟩) = .ok (.decode [0xFFFF]) := by decide

theorem witness_DecoderRefusesOnlyNonUnitPayloads :
    decode (.request ⟨1, [65536]⟩) = .error .payloadNotUnits ∧ ∃ v ∈ [65536], 65536 ≤ v := by decide

theorem witness_HeaderFieldsByMask : (0xF001 : Word).toNat &&& 0x0FFF = (0x0001 : Word).toNat &&& 0x0FFF := by decide

theorem witness_FormedHeaderFields : (255 ≤ 255 ∧ 3 ≤ 3) ∧ (0 ≤ 255 ∧ 0 ≤ 3) := by decide

/-- One header per class, each with `rsv` or opcode at an end of its range. -/
theorem witness_HeaderClassByCount :
    (0xF000 : Word) &&& 0x0F00 = 0x0000 ∧ (0x01FF : Word) &&& 0x0F00 = 0x0100 ∧ (0xF2FF : Word) &&& 0x0F00 = 0x0200 ∧
    (0x0300 : Word) &&& 0x0F00 = 0x0300 ∧ (0x0400 : Word) &&& 0x0F00 = 0x0400 ∧ (0x05FF : Word) &&& 0x0F00 = 0x0500 ∧
    (0xF600 : Word) &&& 0x0F00 = 0x0600 ∧ (0x0700 : Word) &&& 0x0F00 = 0x0700 ∧ (0x08FF : Word) &&& 0x0F00 = 0x0800 ∧
    (0xF900 : Word) &&& 0x0F00 = 0x0900 ∧ (0x0A00 : Word) &&& 0x0F00 = 0x0A00 ∧ (0x0BFF : Word) &&& 0x0F00 = 0x0B00 ∧
    (0xFC00 : Word) &&& 0x0F00 = 0x0C00 ∧ (0x0D00 : Word) &&& 0x0F00 = 0x0D00 ∧ (0x0EFF : Word) &&& 0x0F00 = 0x0E00 ∧
    (0xFFFF : Word) &&& 0x0F00 = 0x0F00 := by decide

theorem witness_StepRunsDecodedInstruction :
    ((offering [⟨1, [0x0100]⟩]).op = .idle ∧ (offering [⟨1, [0x0100]⟩]).offered = ⟨1, [0x0100]⟩ :: [] ∧
      decode (.request ⟨1, [0x0100]⟩) = .ok (.decode [0x0100])) ∧
    (encoding [1, 0, 0, 0] 4 [1] .run).op = .enc ⟨[1, 0, 0, 0], 4, [1], .run⟩ ∧
    ((decoding [0x0100] 0 [] .run).op = .dec ⟨[0x0100], 0, [], .run⟩ ∧ ([0x0100] : List Word)[0]? = some 0x0100 ∧
      decode (.header 0x0100) = .ok (.h1 0 0)) ∧
    ((decoding [0x0005] 1 [5] .run).op = .dec ⟨[0x0005], 1, [5], .run⟩ ∧ ([0x0005] : List Word).length ≤ 1) ∧
    ((decoding [0x0005] 1 [5] .done).op = .dec ⟨[0x0005], 1, [5], .done⟩ ∧ Status.done ≠ .run) := by decide

theorem witness_IdleInstanceWithoutUsableRequest :
    (State.reset.op = .idle ∧ State.reset.offered = []) ∧ Request.wf ⟨1, [65536]⟩ = false ∧
    ((offering [⟨1, [65536]⟩]).op = .idle ∧ (offering [⟨1, [65536]⟩]).offered = ⟨1, [65536]⟩ :: [] ∧
      Request.wf ⟨1, [65536]⟩ = false) := by decide

/-- Both cases of the precheck, the first at the length limit. -/
theorem witness_EncodeAcceptance :
    (bounded 4).op = .idle ∧ (bounded 4).params.admits [1, 0, 0, 0].length = true ∧ [1, 0, 0, 0].length % 4 = 0 ∧
    (bounded 4).params.admits [1, 0, 0].length = true ∧ [1, 0, 0].length % 4 ≠ 0 := by decide

theorem witness_OverLongRequestRefused :
    (Request.wf ⟨1, [7]⟩ = true ∧ (bounded 0).params.maxInputLen = some 0 ∧ 0 < [7].length) ∧
    (Request.wf ⟨0, [1, 0, 0, 0]⟩ = true ∧ (bounded 4).params.maxInputLen = some 4 ∧ [1, 0, 0, 0].length ≤ 4) ∧
    ((bounded 4).op = .idle ∧ 4 < [1, 0, 0, 0, 0].length ∧ 4 < ([0, 0, 0, 0, 0] : List Word).length) ∧
    (((bounded 0).enqueue ⟨1, [7]⟩).op = .idle ∧ ((bounded 0).enqueue ⟨1, [7]⟩).offered = ⟨1, [7]⟩ :: [] ∧
      ((bounded 0).enqueue ⟨1, [7]⟩).params.maxInputLen = some 0) ∧
    (State.reset.op = .idle ∧ State.reset.params.maxInputLen = none) := by decide

/-- The record at the cursor of a program at a record step, in every case of the checks. -/
theorem witness_EncodeRecordStep :
    (∀ p, (encoding p 0 [] .run).op = .enc ⟨p, 0, [], .run⟩) ∧
    readRecord [255, 65535, 65535, 65535] 0 = some (255, 65535, 65535, 65535) ∧
    readRecord [256, 0, 0, 0] 0 = some (256, 0, 0, 0) ∧ readRecord [255, 65536, 0, 0] 0 = some (255, 65536, 0, 0) ∧
    readRecord [255, 65535, 65536, 0] 0 = some (255, 65535, 65536, 0) ∧
    readRecord [255, 65535, 65535, 65536] 0 = some (255, 65535, 65535, 65536) ∧
    (encoding [1, 5, 0, 0, 2, 0, 0, 7] 4 [0x0101, 5] .run).op = .enc ⟨[1, 5, 0, 0, 2, 0, 0, 7], 4, [0x0101, 5], .run⟩ ∧
    readRecord [1, 5, 0, 0, 2, 0, 0, 7] 4 = some (2, 0, 0, 7) := ⟨fun _ => rfl, by decide⟩

theorem witness_EncodeEndStep :
    ((encoding [1, 0, 0, 0] 4 [1] .run).op = .enc ⟨[1, 0, 0, 0], 4, [1], .run⟩ ∧ 4 = [1, 0, 0, 0].length ∧
      EncWork.Sound ⟨[1, 0, 0, 0], 4, [1], .run⟩) ∧
    ((encoding [] 0 [] .run).op = .enc ⟨[], 0, [], .run⟩ ∧ 0 = ([] : List Nat).length) :=
  ⟨⟨rfl, rfl, by decide, by decide, by decide, rfl⟩, by decide⟩

theorem witness_ResponseStep :
    (encoding [1, 0, 0, 0] 4 [1] .done).op = .enc ⟨[1, 0, 0, 0], 4, [1], .done⟩ ∧
    (encoding [1] 0 [] (.fault 5 (.raggedProgram 1))).op = .enc ⟨[1], 0, [], .fault 5 (.raggedProgram 1)⟩ ∧
    (decoding [0x0005] 1 [5] .done).op = .dec ⟨[0x0005], 1, [5], .done⟩ ∧
    (decoding [0x0F00] 0 [] (.fault 4 (.corruptStream 0 15))).op =
      .dec ⟨[0x0F00], 0, [], .fault 4 (.corruptStream 0 15)⟩ := by decide

theorem witness_DecodeAcceptance :
    (bounded 2).op = .idle ∧ (bounded 2).params.admits ([0x0100, 7] : List Word).length = true ∧
    (bounded 0).op = .idle ∧ (bounded 0).params.admits ([] : List Word).length = true := by decide

/-- Counts 3 and 4, 3 with exactly its words and with one fewer. -/
theorem witness_DecodeHeaderStep :
    ((decoding [0x0301, 1, 2, 3] 0 [] .run).op = .dec ⟨[0x0301, 1, 2, 3], 0, [], .run⟩ ∧
      ([0x0301, 1, 2, 3] : List Word)[0]? = some 0x0301 ∧ ((0x0301 : Word).toNat &&& 0x0F00) >>> 8 = 3) ∧
    ((decoding [0x0301, 1, 2] 0 [] .run).op = .dec ⟨[0x0301, 1, 2], 0, [], .run⟩ ∧
      ([0x0301, 1, 2] : List Word)[0]? = some 0x0301) ∧
    ((decoding [0x0001, 0x0401] 1 [1] .run).op = .dec ⟨[0x0001, 0x0401], 1, [1], .run⟩ ∧
      ([0x0001, 0x0401] : List Word)[1]? = some 0x0401 ∧ ((0x0401 : Word).toNat &&& 0x0F00) >>> 8 = 4) := by decide

theorem witness_DecodeEndStep :
    (decoding [0x0005] 1 [5] .run).op = .dec ⟨[0x0005], 1, [5], .run⟩ ∧ 1 = ([0x0005] : List Word).length := by decide

/-- H0 as the last unit of its stream; also the case of the illegal classes and of an operand word. -/
theorem witness_H0Meaning :
    (decoding [0xF0AB] 0 [] .run).op = .dec ⟨[0xF0AB], 0, [], .run⟩ ∧ 0 < ([0xF0AB] : List Word).length := by decide

theorem witness_H1Meaning :
    ((decoding [0x0101, 7] 0 [] .run).op = .dec ⟨[0x0101, 7], 0, [], .run⟩ ∧ 0 < ([0x0101, 7] : List Word).length ∧
      ([0x0101, 7] : List Word)[0 + 1]? = some 7) ∧
    ((decoding [0x0101] 0 [] .run).op = .dec ⟨[0x0101], 0, [], .run⟩ ∧ 0 < ([0x0101] : List Word).length ∧
      ([0x0101] : List Word).length < 0 + 2) := by decide

theorem witness_H2Meaning :
    ((decoding [0x0201, 7, 8] 0 [] .run).op = .dec ⟨[0x0201, 7, 8], 0, [], .run⟩ ∧
      ([0x0201, 7, 8] : List Word)[0 + 1]? = some 7 ∧ ([0x0201, 7, 8] : List Word)[0 + 2]? = some 8) ∧
    ((decoding [0x0201, 7] 0 [] .run).op = .dec ⟨[0x0201, 7], 0, [], .run⟩ ∧ 0 < ([0x0201, 7] : List Word).length ∧
      ([0x0201, 7] : List Word).length < 0 + 3) := by decide

theorem witness_H3Meaning :
    ((decoding [0x0301, 7, 8, 9] 0 [] .run).op = .dec ⟨[0x0301, 7, 8, 9], 0, [], .run⟩ ∧
      ([0x0301, 7, 8, 9] : List Word)[0 + 1]? = some 7 ∧ ([0x0301, 7, 8, 9] : List Word)[0 + 2]? = some 8 ∧
      ([0x0301, 7, 8, 9] : List Word)[0 + 3]? = some 9) ∧
    ((decoding [0x0301, 7, 8] 0 [] .run).op = .dec ⟨[0x0301, 7, 8], 0, [], .run⟩ ∧
      0 < ([0x0301, 7, 8] : List Word).length ∧ ([0x0301, 7, 8] : List Word).length < 0 + 4) := by decide

theorem witness_IllegalClassesRaiseCorruptStream :
    (decoding [0x0001, 0x0F00] 1 [1] .run).op = .dec ⟨[0x0001, 0x0F00], 1, [1], .run⟩ ∧
    1 < ([0x0001, 0x0F00] : List Word).length := by decide

theorem witness_OperandWordCopied :
    (decoding [0x0101, 0x0F00] 1 [1] .run).op = .dec ⟨[0x0101, 0x0F00], 1, [1], .run⟩ ∧
    1 < ([0x0101, 0x0F00] : List Word).length := by decide

theorem witness_ClassMeaningsAgreeWithHeaderStep :
    (decoding [0xA1FF, 0x1234] 0 [] .run).op = .dec ⟨[0xA1FF, 0x1234], 0, [], .run⟩ ∧
    ([0xA1FF, 0x1234] : List Word)[0]? = some 0xA1FF := by decide

theorem witness_ReservedBitsIgnored :
    (255 ≤ 255 ∧ 3 ≤ 3) ∧ hdrCnt 0x0001 = hdrCnt 0xF001 ∧ hdrType 0x0001 = hdrType 0xF001 ∧
    (0x0001 : Word) ≠ 0xF001 := by decide

/-- The four places with no header step due (IDLE, BUSY_ENC, not RUN, end of input) and the two unreachable cursors. -/
theorem witness_StopsWhereNoStepIsDue :
    (∀ s ∈ [State.reset, encoding [1, 0, 0, 0] 0 [] .run, decoding [0x0005] 0 [] .done, decoding [0x0005] 1 [5] .run],
      ∀ w, s.op = .dec w → w.st = .run → w.input.length ≤ w.j) ∧
    ((encoding [1, 0, 0] 0 [] .run).op = .enc ⟨[1, 0, 0], 0, [], .run⟩ ∧ 0 ≠ [1, 0, 0].length ∧
      [1, 0, 0].length < 0 + 4) ∧
    ((decoding [5] 2 [] .run).op = .dec ⟨[5], 2, [], .run⟩ ∧ ([5] : List Word).length < 2) := by
  refine ⟨?_, by decide, by decide⟩
  simp only [List.forall_mem_cons]
  refine ⟨?_, ?_, ?_, ?_, by simp⟩ <;> intro w hw hst <;> cases hw <;> first | (cases hst; done) | decide

theorem witness_OtherCommandHeldWhileBusy :
    ((encoding [1, 0, 0, 0] 0 [] .run).op = .enc ⟨[1, 0, 0, 0], 0, [], .run⟩ ∧ [2, 0, 0, 0] ≠ [1, 0, 0, 0]) ∧
    ((decoding [5] 0 [] .run).op = .dec ⟨[5], 0, [], .run⟩ ∧ ([6] : List Word) ≠ [5]) ∧
    (decoding [5] 0 [] .run).op ≠ .idle ∧ (opAfter (step (decoding [5] 0 [] .run))).isSome := by decide

/-- A record step, and a response step. -/
theorem witness_InstructionFrame :
    (∃ t, exec (.encode [1, 0, 0, 0]) (encoding [1, 0, 0, 0] 0 [] .run) = .next t) ∧
    (∃ t, exec (.decode [5]) (decoding [5] 1 [5] .done) = .next t) := ⟨⟨_, rfl⟩, ⟨_, rfl⟩⟩

/-- A header written, a header that raises, and a word. -/
theorem witness_HeaderInstructionFrame :
    (∃ t, exec (.h1 0 1) (decoding [0x0101, 7] 0 [] .run) = .next t) ∧
    (∃ t, exec (.h1 0 1) (decoding [0x0101] 0 [] .run) = .next t) ∧
    (∃ t, exec (.operandWord 7) (decoding [0x0101, 7] 1 [1] .run) = .next t) ∧
    (∀ p, Instr.h1 0 1 ≠ .encode p) ∧ (∀ u, Instr.h1 0 1 ≠ .decode u) :=
  ⟨⟨_, rfl⟩, ⟨_, rfl⟩, ⟨_, rfl⟩, nofun, nofun⟩

theorem witness_SnapshotNeverWritten :
    ((encoding [1, 0, 0, 0] 0 [] .run).op = .enc ⟨[1, 0, 0, 0], 0, [], .run⟩ ∧
      ∃ t, step (encoding [1, 0, 0, 0] 0 [] .run) = .next t) ∧
    ((decoding [0x0F00] 0 [] .run).op = .dec ⟨[0x0F00], 0, [], .run⟩ ∧
      ∃ t, step (decoding [0x0F00] 0 [] .run) = .next t) := ⟨⟨rfl, ⟨_, rfl⟩⟩, ⟨rfl, ⟨_, rfl⟩⟩⟩

theorem witness_StepFrame :
    (∃ t, step (offering [⟨0, []⟩]) = .next t) ∧ (∃ t, step (decoding [5] 1 [5] .done) = .next t) :=
  ⟨⟨_, rfl⟩, ⟨_, rfl⟩⟩

/-- A decoder in the middle of its stream, two requests held. -/
def midDecode : State :=
  { decoding [0x0101, 7, 0x0002] 2 [1, 7] .run with offered := [⟨0, [1, 0, 0, 0]⟩, ⟨1, [65535]⟩] }

theorem midDecode_inv : midDecode.Inv := ⟨⟨rfl, by decide, rfl⟩, by unfold State.PortAdmitted; decide⟩

/-- An encoder in the middle of its program. -/
def midEncode : State := encoding [1, 5, 0, 0, 2, 0, 0, 0] 4 [0x0101, 5] .run

theorem midEncode_inv : midEncode.Inv :=
  ⟨⟨rfl, by decide, by decide, by decide, rfl⟩, by unfold State.PortAdmitted; decide⟩

theorem witness_StepKeepsInvariant :
    midDecode.Inv ∧ (∃ t, step midDecode = .next t) ∧ midEncode.Inv ∧ (∃ t, step midEncode = .next t) :=
  ⟨midDecode_inv, ⟨_, rfl⟩, midEncode_inv, ⟨_, rfl⟩⟩

/-- A busy state that a run reaches: reset, a request, its acceptance. -/
theorem witness_InvariantOfReachableStates :
    ∃ s, Reachable s ∧ s.op = .dec ⟨[0x0101, 7], 0, [], .run⟩ :=
  ⟨_, .event .stepOnce (.event (.offer ⟨1, [0x0101, 7]⟩) (.reset ⟨some 2⟩) rfl) rfl, rfl⟩

theorem witness_CursorAlignedAndInRange :
    (∃ s, Reachable s ∧ s.op = .enc ⟨[1, 0, 0, 0], 0, [], .run⟩ ∧ 0 < [1, 0, 0, 0].length) ∧
    (∃ s, Reachable s ∧ s.op = .dec ⟨[0x0101, 7], 2, [1, 7], .run⟩ ∧ ∀ code info, Status.run ≠ .fault code info) :=
  ⟨⟨_, .event .stepOnce (.event (.offer ⟨0, [1, 0, 0, 0]⟩) (.reset ⟨none⟩) rfl) rfl, rfl, by decide⟩,
   ⟨_, .event .stepOnce (.event .stepOnce (.event (.offer ⟨1, [0x0101, 7]⟩) (.reset ⟨none⟩) rfl) rfl) rfl, rfl, nofun⟩⟩

theorem witness_SoundInstanceKeepsStepping :
    (midDecode.OperationSound ∧ midDecode.op ≠ .idle) ∧ midDecode.Inv ∧
    ((offering [⟨1, [65535]⟩]).OperationSound ∧ (offering [⟨1, [65535]⟩]).HeadAcceptable) :=
  ⟨⟨midDecode_inv.1, by decide⟩, midDecode_inv, trivial, by intro r hr; cases hr; decide⟩

theorem witness_EncodeStepsGiveItsTransaction :
    (offering [⟨0, [1, 0, 0, 0]⟩, ⟨1, [5]⟩]).op = .idle ∧
    (offering [⟨0, [1, 0, 0, 0]⟩, ⟨1, [5]⟩]).offered = ⟨0, [1, 0, 0, 0]⟩ :: [⟨1, [5]⟩] ∧
    (offering [⟨0, [1, 0, 0, 0]⟩, ⟨1, [5]⟩]).params.admits [1, 0, 0, 0].length = true ∧
    encodeCommand [1, 0, 0, 0] = .ok [1] := by decide

theorem witness_DecodeStepsGiveItsTransaction :
    (offering [⟨1, [0x0100]⟩]).op = .idle ∧
    (offering [⟨1, [0x0100]⟩]).offered = ⟨1, ([0x0100] : List Word).map BitVec.toNat⟩ :: [] ∧
    (offering [⟨1, [0x0100]⟩]).params.admits ([0x0100] : List Word).length = true := by decide

/-- Busy with DECODE and two requests held, busy with ENCODE, and IDLE with requests held that succeed and fail. -/
theorem witness_HeldRequestsServedInOrder :
    (midDecode.Inv ∧ midDecode.op ≠ .idle ∧ midDecode.offered ≠ []) ∧ (midEncode.Inv ∧ midEncode.op ≠ .idle) ∧
    (offering [⟨0, [1, 0, 0, 0]⟩, ⟨1, [0x0100]⟩, ⟨0, [1]⟩]).Inv :=
  ⟨⟨midDecode_inv, by decide, by decide⟩, ⟨midEncode_inv, by decide⟩, trivial, by unfold State.PortAdmitted; decide⟩

/-- Two instances that differ in what was delivered before. -/
theorem witness_StepIgnoresResponsesAndLatches :
    let s := decoding [5] 0 [] .run
    let u : State := { decoding [5] 0 [] .run with responses := [.ok [9]] }
    s.op = u.op ∧ s.params = u.params ∧ s.offered = u.offered ∧ s.fresh = u.fresh ∧ s.responses ≠ u.responses := by
  decide

/-- A ragged program; then after one good record each check at its boundary. -/
theorem witness_EncodeReportsFirstError :
    [1, 2, 3].length % 4 ≠ 0 ∧ [1, 0, 0, 0].length % 4 = 0 ∧ [300, 0, 0, 0].length % 4 = 0 ∧
    encodeCommand [1, 0, 0, 0] = .ok [1] ∧ 255 < 256 ∧ (255 ≤ 255 ∧ 65535 < 65536 ∧ 65535 ≤ 65535) := by decide

theorem witness_DecodeReportsFirstError :
    decodeCommand [0x0001] = .ok [1] ∧ 3 < (hdrCnt 0x0401).toNat ∧
    ((hdrCnt 0x0301).toNat ≤ 3 ∧ ([1, 2] : List Word).length < (hdrCnt 0x0301).toNat) := by decide

theorem witness_DecodeOfEncode : encodeCommand [9, 0, 7, 0, 9, 7, 0, 0] = .ok [0x0109, 0, 0x0109, 7] := by decide

theorem witness_EncodedLength :
    encodeCommand [255, 65535, 65535, 65535] = .ok [0x03FF, 0xFFFF, 0xFFFF, 0xFFFF] ∧
    encodeCommand [0, 0, 0, 0] = .ok [0] := by decide

theorem witness_EncodeConcatenation :
    [1, 0, 0, 0].length % 4 = 0 ∧ [300, 0, 0, 0].length % 4 = 0 ∧ encodeCommand [1, 0, 0, 0] = .ok [1] ∧
    encodeCommand [2, 5, 0, 0] = .ok [0x0102, 5] ∧
    encodeCommand [300, 0, 0, 0] = .error (.opcodeTooLarge 300 0) := by decide

theorem witness_DecodeConcatenation :
    decodeCommand [0x3107, 0xFFFF] = .ok [7, 0xFFFF] ∧ decodeCommand [0x2000] = .ok [0] := by decide

/-- The header positions of `[0x0101, 5]` are 0 and its end. -/
theorem operand_is_no_header {k : Nat} (h : HeaderPosition [0x0101, 5] k) : k = 0 ∨ k = 2 := by
  induction h with
  | first => exact .inl rfl
  | following _ hx ih =>
    rcases ih with rfl | rfl
    · cases hx; exact .inr (by decide)
    · cases hx

theorem witness_DecodedShape :
    decodeCommand [0x0101, 5] = .ok [1, 5] ∧ HeaderPosition [0x0101, 5] 0 ∧ ¬ HeaderPosition [0x0101, 5] 1 :=
  ⟨by decide, .first, fun h => absurd (operand_is_no_header h) (by decide)⟩

theorem witness_AmbiguityKept : (255 ≤ 255 ∧ 0 < 65535 ∧ 65535 ≤ 65535) ∧ (0 ≤ 255 ∧ 0 < 1 ∧ 1 ≤ 65535) := by decide

theorem witness_EmptyAndExtremeRecords :
    (encoding [] 0 [] .run).op = .enc ⟨[], 0, [], .run⟩ ∧ 255 ≤ 255 := by decide

theorem witness_RaiseAndReturn :
    (encoding [256, 0, 0, 0] 0 [] .run).op = .enc ⟨[256, 0, 0, 0], 0, [], .run⟩ ∧
    (decoding [0x0F00] 0 [] .run).op = .dec ⟨[0x0F00], 0, [], .run⟩ := by decide

/-- A busy instance that is reset, and a request of the largest length admitted. -/
theorem witness_ResponseAfterResetIsItsOwn :
    (decoding [5] 9 [1, 2] .run).offered = [] ∧ Request.wf ⟨1, [65535]⟩ = true ∧
    (decoding [5] 9 [1, 2] .run).params.admits [65535].length = true ∧
    (bounded 1).params.admits [65535].length = true := by decide

theorem witness_InstancesDoNotInterfere :
    (⟨[State.reset, bounded 4]⟩ : Platform).instances[1]? = some (bounded 4) := rfl

theorem witness_ByteLayout : ([0x0102, 0xFF00] : List Word)[1]? = some 0xFF00 := by decide

theorem witness_ByteDeserialization :
    ([1, 2, 3] : List Byte).length % 2 = 1 ∧ ([1, 255] : List Byte).length % 2 = 0 ∧
    ([1, 255] : List Byte)[2 * 0]? = some 1 ∧ ([1, 255] : List Byte)[2 * 0 + 1]? = some 255 := by decide

theorem witness_AdapterRoundTrips :
    Carrier.bytes (toBytes [0xD800] .big) .big ∈
      [Carrier.text (toText [0xD800]), Carrier.buffer (toBuffer [0xD800]), Carrier.bytes (toBytes [0xD800] .big) .big] := by
  decide

end Sys2Proof.Tests
end

section
/-! PROOFS. The header fields as the decoder's masks give them (30_encoding.md R52). -/

namespace Sys2Proof

/-- The type mask of R52. -/
theorem hdrType_toNat_eq_and (h : Word) : (hdrType h).toNat = h.toNat &&& 0xFF := by
  rw [hdrType_toNat]
  exact (Nat.and_two_pow_sub_one_eq_mod h.toNat 8).symm

/-- The count mask and shift of R52. -/
theorem hdrCnt_toNat_eq_and_shiftRight (h : Word) :
    (hdrCnt h).toNat = (h.toNat &&& 0x0F00) >>> 8 := by
  rw [hdrCnt_toNat, Laws.and_0F00, Nat.shiftRight_eq_div_pow]
  exact (Nat.mul_div_cancel _ (by decide)).symm

/-- Bits 11..0 of a unit are all that its two decoded fields depend on. -/
theorem hdrType_hdrCnt_eq_of_mod_4096_eq {h h' : Word} (hlow : h'.toNat % 4096 = h.toNat % 4096) :
    hdrType h' = hdrType h ∧ hdrCnt h' = hdrCnt h := by
  constructor <;> apply BitVec.eq_of_toNat_eq
  · rw [hdrType_toNat, hdrType_toNat]; omega
  · rw [hdrCnt_toNat, hdrCnt_toNat]; omega

/-- Settles O4: the masks are remainders and quotients, the ranges are the fields' widths, and the reserved bits
are cut off by the remainder modulo `2 ^ 12`. -/
theorem headerFieldsByMask : Obligations.HeaderFieldsByMask := by
  intro h
  refine ⟨hdrType_toNat_eq_and h, hdrCnt_toNat_eq_and_shiftRight h,
    Nat.le_of_lt_succ (hdrType h).isLt, Nat.le_of_lt_succ (hdrCnt h).isLt, fun h' hmask => ?_⟩
  have and_0FFF (x : Nat) : x &&& 0x0FFF = x % 4096 := Nat.and_two_pow_sub_one_eq_mod x 12
  rw [and_0FFF, and_0FFF] at hmask
  exact hdrType_hdrCnt_eq_of_mod_4096_eq hmask

end Sys2Proof
end

section
/-! PROOFS. The steps of ENCODE: what the command executes in each case of its phase, status and cursor
(40_encoder.md R66, R67, R73), and the acceptance, the record step and the end step from there. -/

namespace Sys2Proof.Machine

/-! ### What ENCODE executes -/

theorem exec_encode_idle {s : State} (p : List Nat) (hs : s.op = .idle) :
    exec (.encode p) s = encAccept p s := by
  simp only [exec, execEncode, hs]

theorem exec_encode_record {s : State} {w : EncWork} (hs : s.op = .enc w) (hst : w.st = .run)
    (hi : w.i < w.input.length) : exec (.encode w.input) s = encRec w s := by
  simp only [exec, execEncode, hs, hst, hi, if_true]

theorem exec_encode_end {s : State} {w : EncWork} (hs : s.op = .enc w) (hst : w.st = .run)
    (hi : w.i = w.input.length) : exec (.encode w.input) s = encEnd w s := by
  simp only [exec, execEncode, hs, hst, hi, Nat.lt_irrefl, if_true, if_false]

theorem exec_encode_done {s : State} {w : EncWork} (hs : s.op = .enc w) (hst : w.st = .done) :
    exec (.encode w.input) s = s.respond := by
  simp only [exec, execEncode, hs, hst, if_true]

/-! ### Acceptance -/

/-- The converse of `encAccept_next`: an admitted ENCODE starts its operation. -/
theorem encAccept_admitted {p : List Nat} {s : State} (ha : s.params.admits p.length = true) :
    encAccept p s = .next (s.setOp (.enc (startedEncode p s))).endStep := by
  obtain ⟨t, ht⟩ : ∃ t, encAccept p s = .next t := ⟨_, acceptWith_admitted ha⟩
  rw [ht, (encAccept_next ht).2]

/-- Settles O11: an admitted program starts the operation `startedEncode`, which is the precheck of R66. -/
theorem encodeAcceptance : Obligations.EncodeAcceptance := by
  intro s p hs ha
  rw [exec_encode_idle p hs, encAccept_admitted ha]
  rfl

/-! ### The record step -/

/-- The checks of R67 with the rule's own bounds. -/
theorem recordError_eq (k t a b c : Nat) : recordError k t a b c =
    if 255 < t then some (.opcodeTooLarge t k)
    else if 65535 < a then some (.operandTooLarge a k 1)
    else if 65535 < b then some (.operandTooLarge b k 2)
    else if 65535 < c then some (.operandTooLarge c k 3)
    else none := by
  simp only [recordError, opcodeOver_iff, operandOver_iff]

/-- The operand count of R70 in the words of the rule. -/
theorem operandCount_eq_sum (a b c : Nat) : operandCount a b c =
    (if a ≠ 0 then 1 else 0) + (if b ≠ 0 then 1 else 0) + (if c ≠ 0 then 1 else 0) := by
  simp only [operandCount, boolToNat, bne_iff_ne]

/-- The units of a record whose operand count is known: the count fixes the header and how many slots follow. -/
theorem recordUnits_of_count {t a b c n : Nat} (hn : operandCount a b c = n) :
    recordUnits t a b c = BitVec.ofNat 16 (t ||| (n <<< 8)) :: ([a, b, c].take n).map (BitVec.ofNat 16) := by
  subst hn; rfl

/-- Settles O13: the record step is `encRec`; a record that fails a check raises that check's error, and one that
passes all four emits its units. -/
theorem encodeRecordStep : Obligations.EncodeRecordStep := by
  intro s w t a b c hs hst h0 h1 h2 h3 n
  have hr : readRecord w.input w.i = some (t, a, b, c) := readRecord_eq_some.2 ⟨h0, h1, h2, h3⟩
  rw [exec_encode_record hs hst (lt_of_get h0)]
  split_ifs with ht ha hb hc
  · exact encRec_error hr hs (by rw [recordError_eq, if_pos ht])
  · exact encRec_error hr hs (by rw [recordError_eq, if_neg ht, if_pos ha])
  · exact encRec_error hr hs (by rw [recordError_eq, if_neg ht, if_neg ha, if_pos hb])
  · exact encRec_error hr hs (by rw [recordError_eq, if_neg ht, if_neg ha, if_neg hb, if_pos hc])
  · have hok : recordError (w.i / 4) t a b c = none := recordError_eq_none.2 (by omega)
    rw [encRec_ok hr hok, recordUnits_of_count (operandCount_eq_sum a b c)]
    rfl

/-! ### The end step -/

/-- At the end of its input a sound running encoder has the whole transaction's output (10_state.md R29). -/
theorem encodeCommand_of_sound_at_end {w : EncWork} (hw : w.Sound) (hst : w.st = .run)
    (hi : w.i = w.input.length) : encodeCommand w.input = .ok w.out := by
  obtain ⟨-, -, hrun⟩ := hw
  rw [hst] at hrun
  obtain ⟨-, hout⟩ := hrun
  rwa [hi, List.take_length] at hout

/-- Settles O14: the end step, then the response step of the DONE status it leaves, and the output by soundness at
the end of the input. -/
theorem encodeEndStep : Obligations.EncodeEndStep := by
  intro s w hs hst hi
  refine ⟨exec_encode_end hs hst hi, ?_, fun hw => encodeCommand_of_sound_at_end hw hst hi⟩
  have hdone : (State.endStep { s with op := .enc { w with st := .done } }).op = .enc { w with st := .done } := rfl
  rw [step_enc hdone, exec_encode_done hdone rfl, respond_ready (r := .ok w.out) (by rw [hdone]; rfl)]
  rfl

end Sys2Proof.Machine
end

section
/-! PROOFS. Programs of one record by the transaction view (40_encoder.md R76 to R78). -/

namespace Sys2Proof.Machine

/-- A program of one record in range encodes to that record's units. -/
theorem encodeCommand_record {t a b c : Nat} (ht : t ≤ 255) (ha : a ≤ 65535) (hb : b ≤ 65535) (hc : c ≤ 65535) :
    encodeCommand [t, a, b, c] = .ok (recordUnits t a b c) := by
  have he : recordError 0 t a b c = none := recordError_eq_none.2 ⟨ht, ha, hb, hc⟩
  rw [encodeCommand_of_mod (by simp)]
  simp only [encodeRecords, he, List.append_nil]

/-- Settles O50: one non-zero operand in any slot makes the count 1, and the one operand emitted is slot 1. -/
theorem ambiguityKept : Obligations.AmbiguityKept := by
  intro t v ht hpos hv
  have hne : v ≠ 0 := Nat.pos_iff_ne_zero.1 hpos
  have hz : 0 ≤ 65535 := Nat.zero_le _
  have count2 : operandCount 0 v 0 = 1 := by simp [operandCount_eq_sum, hne]
  have count3 : operandCount 0 0 v = 1 := by simp [operandCount_eq_sum, hne]
  have count1 : operandCount v 0 0 = 1 := by simp [operandCount_eq_sum, hne]
  refine ⟨?_, ?_, ?_⟩
  · rw [encodeCommand_record ht hz hv hz, recordUnits_of_count count2]; rfl
  · rw [encodeCommand_record ht hz hz hv, recordUnits_of_count count3]; rfl
  · rw [encodeCommand_record ht hv hz hz, recordUnits_of_count count1]; rfl

/-- A unit that is an opcode only has the count 0 (R77). -/
theorem hdrCnt_ofNat_opcode {t : Nat} (ht : t ≤ 255) : hdrCnt (BitVec.ofNat 16 t) = 0 := by
  apply BitVec.eq_of_toNat_eq
  rw [hdrCnt_toNat, BitVec.toNat_ofNat]
  show t % 65536 / 256 % 16 = 0
  omega

/-- Settles O51: the empty program is at its end at once, and a record's count is 0 with no operand and 3 with all. -/
theorem emptyAndExtremeRecords : Obligations.EmptyAndExtremeRecords := by
  refine ⟨rfl, fun s hs => exec_encode_end hs rfl rfl, fun t ht => ⟨?_, ?_, hdrCnt_ofNat_opcode ht⟩⟩
  · rw [encodeCommand_record ht (by decide) (by decide) (by decide), recordUnits_of_count (n := 0) rfl,
      Nat.zero_shiftLeft, Nat.or_zero]
    rfl
  · rw [encodeCommand_record ht (by decide) (by decide) (by decide), recordUnits_of_count (n := 3) rfl]
    rfl

end Sys2Proof.Machine
end

section
/-! PROOFS. The steps of DECODE and of its header classes (41_decoder.md R82 to R91): what the command executes in
each case of its phase, status and cursor, the three outcomes of a header step, and every class from there. -/

namespace Sys2Proof.Machine

/-! ### What DECODE executes -/

theorem exec_decode_idle {s : State} (u : List Word) (hs : s.op = .idle) :
    exec (.decode u) s = decAccept u s := by
  simp only [exec, execDecode, hs]

theorem exec_decode_header {s : State} {w : DecWork} {h : Word} (hs : s.op = .dec w) (hst : w.st = .run)
    (hh : w.input[w.j]? = some h) :
    exec (.decode w.input) s = headerStep h (hdrType h) (hdrCnt h).toNat w s := by
  simp only [exec, execDecode, hs, hst, lt_of_get hh, if_true, decRec, memRead, hh]

theorem exec_decode_end {s : State} {w : DecWork} (hs : s.op = .dec w) (hst : w.st = .run)
    (hj : w.j = w.input.length) : exec (.decode w.input) s = decEnd w s := by
  simp only [exec, execDecode, hs, hst, hj, Nat.lt_irrefl, if_true, if_false]

theorem exec_decode_done {s : State} {w : DecWork} (hs : s.op = .dec w) (hst : w.st = .done) :
    exec (.decode w.input) s = s.respond := by
  simp only [exec, execDecode, hs, hst, if_true]

/-! ### Acceptance and the end step -/

/-- Settles O16: the only check of an acceptance is the length limit, which is met here. -/
theorem decodeAcceptance : Obligations.DecodeAcceptance := by
  intro s u hs ha
  rw [exec_decode_idle u hs]
  exact acceptWith_admitted ha

/-- Settles O18: the end step, then the response step of the DONE status it leaves; the empty stream has no header. -/
theorem decodeEndStep : Obligations.DecodeEndStep := by
  refine ⟨fun s w hs hst hj => ⟨exec_decode_end hs hst hj, ?_⟩, rfl⟩
  have hdone : (State.endStep { s with op := .dec { w with st := .done } }).op = .dec { w with st := .done } := rfl
  rw [step_dec_other hdone (.inl nofun), exec_decode_done hdone rfl,
    respond_ready (r := .ok w.out) (by rw [hdone]; rfl)]
  rfl

/-! ### The three outcomes of a header step -/

/-- An illegal count is reported before the words that follow are counted (41_decoder.md R88, R90). -/
theorem headerError_corrupt {j n len : Nat} (hn : 3 < n) : headerError j n len = some (.corruptStream j n) :=
  if_pos hn

/-- A legal header with too few units after it (41_decoder.md R89). -/
theorem headerError_truncated {j n len : Nat} (hn : n ≤ 3) (hl : len < j + 1 + n) :
    headerError j n len = some (.truncatedStream j n (len - j - 1)) :=
  (if_neg (Nat.not_lt.2 hn)).trans (if_pos hl)

/-- The type mask of R52 leaves the zero-extended opcode. -/
theorem and_00FF_eq_zext16_hdrType (h : Word) : h &&& 0x00FF = zext16 (hdrType h) := by
  apply BitVec.eq_of_toNat_eq
  rw [zext16, BitVec.toNat_setWidth_of_le (by decide), hdrType_toNat_eq_and]
  rfl

/-- Settles O17: the count of the rule's mask is the header's count field, and each of the rule's three cases is one
outcome of `headerStep`. -/
theorem decodeHeaderStep : Obligations.DecodeHeaderStep := by
  intro s w h hs hst hh n
  have hn : (hdrCnt h).toNat = n := hdrCnt_toNat_eq_and_shiftRight h
  have hlt : n < 16 := hn ▸ (hdrCnt h).isLt
  rw [exec_decode_header hs hst hh, hn]
  split_ifs with hc hl
  · exact headerStep_error hlt hs (headerError_corrupt hc)
  · exact headerStep_error hlt hs (headerError_truncated (Nat.not_lt.1 hc) hl)
  · rw [headerStep_ok hlt (headerError_eq_none.2 ⟨Nat.not_lt.1 hc, Nat.not_lt.1 hl⟩), and_00FF_eq_zext16_hdrType]
    rfl

/-! ### The header classes -/

/-- The operand words at an index: the unit there, then those after it (30_encoding.md R58). -/
theorem operandWords_succ {input : List Word} {start : Nat} {v : Word} (n : Nat) (h : input[start]? = some v) :
    operandWords input start (n + 1) = v :: operandWords input (start + 1) n := by
  rw [operandWords, drop_of_get h, List.take_succ_cons, operandWords]

@[simp] theorem operandWords_zero (input : List Word) (start : Nat) : operandWords input start 0 = [] :=
  List.take_zero

section HeaderClass

variable {s : State} {w : DecWork} {n : Nat} (rsv : Rsv) (t : Opcode)

/-- A class of a legal count whose operand words `vs` are there (41_decoder.md R84 to R87). -/
theorem execHeader_ok {vs : List Word} (hs : s.op = .dec w) (hst : w.st = .run) (hn : n ≤ 3)
    (hl : w.j + 1 + n ≤ w.input.length) (hvs : operandWords w.input (w.j + 1) n = vs) :
    execHeader n rsv t s = .next (s.setOp (.dec { w with
      j := w.j + 1 + n, out := w.out ++ zext16 t :: vs })).endStep := by
  subst hvs
  rw [execHeader_due hs hst (by omega), headerStep_ok (by omega) (headerError_eq_none.2 ⟨hn, hl⟩)]

/-- A class of a legal count with too few units after its header (41_decoder.md R89). -/
theorem execHeader_truncated (hs : s.op = .dec w) (hst : w.st = .run) (hj : w.j < w.input.length) (hn : n ≤ 3)
    (hl : w.input.length < w.j + 1 + n) :
    execHeader n rsv t s = .next (s.setOp (.dec { w with
      out := Config.freeOut s.fresh
      st := .fault 3 (.truncatedStream w.j n (w.input.length - w.j - 1)) })).endStep := by
  rw [execHeader_due hs hst hj, headerStep_error (by omega) hs (headerError_truncated hn hl)]
  rfl

/-- A class of an illegal count, whatever follows its header (41_decoder.md R88). -/
theorem execHeader_corrupt (hs : s.op = .dec w) (hst : w.st = .run) (hj : w.j < w.input.length) (hn : 3 < n)
    (hlt : n < 16) :
    execHeader n rsv t s = .next (s.setOp (.dec { w with
      out := Config.freeOut s.fresh, st := .fault 4 (.corruptStream w.j n) })).endStep := by
  rw [execHeader_due hs hst hj, headerStep_error hlt hs (headerError_corrupt hn)]
  rfl

end HeaderClass

/-- Settles O19: a header with no operand words fits wherever a header step is due. -/
theorem h0Meaning : Obligations.H0Meaning := by
  intro s w rsv t hs hst hj
  exact execHeader_ok (n := 0) rsv t hs hst (by decide) hj (operandWords_zero _ _)

/-- Settles O20: the operand words are the one unit after the header, or the header is the last unit. -/
theorem h1Meaning : Obligations.H1Meaning := by
  intro s w rsv t hs hst hj
  refine ⟨fun v1 h1 => ?_, execHeader_truncated (n := 1) rsv t hs hst hj (by decide)⟩
  have hwords : operandWords w.input (w.j + 1) 1 = [v1] := by
    rw [operandWords_succ 0 h1, operandWords_zero]
  exact execHeader_ok rsv t hs hst (by decide) (lt_of_get h1) hwords

/-- Settles O21: the operand words are the two units after the header, or fewer than two are left. -/
theorem h2Meaning : Obligations.H2Meaning := by
  intro s w rsv t hs hst hj
  refine ⟨fun v1 v2 h1 h2 => ?_, execHeader_truncated (n := 2) rsv t hs hst hj (by decide)⟩
  have hwords : operandWords w.input (w.j + 1) 2 = [v1, v2] := by
    rw [operandWords_succ 1 h1, operandWords_succ 0 h2, operandWords_zero]
  exact execHeader_ok rsv t hs hst (by decide) (lt_of_get h2) hwords

/-- Settles O22: the operand words are the three units after the header, or fewer than three are left. -/
theorem h3Meaning : Obligations.H3Meaning := by
  intro s w rsv t hs hst hj
  refine ⟨fun v1 v2 v3 h1 h2 h3 => ?_, execHeader_truncated (n := 3) rsv t hs hst hj (by decide)⟩
  have hwords : operandWords w.input (w.j + 1) 3 = [v1, v2, v3] := by
    rw [operandWords_succ 2 h1, operandWords_succ 1 h2, operandWords_succ 0 h3, operandWords_zero]
  exact execHeader_ok rsv t hs hst (by decide) (lt_of_get h3) hwords

/-- Settles O23: each illegal class is the header class of its own count, and each of those counts is above 3. -/
theorem illegalClassesRaiseCorruptStream : Obligations.IllegalClassesRaiseCorruptStream := by
  intro s w rsv t hs hst hj corrupt
  have raises (n : Nat) (hn : 3 < n) (hlt : n < 16) : execHeader n rsv t s = corrupt n :=
    execHeader_corrupt rsv t hs hst hj hn hlt
  exact ⟨raises 4 (by decide) (by decide), raises 5 (by decide) (by decide), raises 6 (by decide) (by decide),
    raises 7 (by decide) (by decide), raises 8 (by decide) (by decide), raises 9 (by decide) (by decide),
    raises 10 (by decide) (by decide), raises 11 (by decide) (by decide), raises 12 (by decide) (by decide),
    raises 13 (by decide) (by decide), raises 14 (by decide) (by decide), raises 15 (by decide) (by decide)⟩

end Sys2Proof.Machine
end

section
/-! PROOFS. The bytes of a stream and the units of bytes (42_representation.md R100, R101): the two bytes of a unit as
numbers, then where serialization puts them and where deserialization takes them from. -/

namespace Sys2Proof.Machine

/-! ### The bytes of a unit -/

theorem lowByte_eq_ofNat_mod (u : Word) : lowByte u = BitVec.ofNat 8 (u.toNat % 256) := by
  apply BitVec.eq_of_toNat_eq
  rw [lowByte, BitVec.extractLsb'_toNat, BitVec.toNat_ofNat, Nat.shiftRight_zero]
  exact (Nat.mod_mod _ _).symm

theorem highByte_eq_ofNat_div (u : Word) : highByte u = BitVec.ofNat 8 (u.toNat / 256) := by
  apply BitVec.eq_of_toNat_eq
  rw [highByte, BitVec.extractLsb'_toNat, BitVec.toNat_ofNat, Nat.shiftRight_eq_div_pow]

@[simp] theorem length_unitBytes (o : ByteOrder) (u : Word) : (unitBytes o u).length = 2 := by
  cases o <;> rfl

/-- Two concatenated bytes are the shift and the bitwise or of R101. -/
theorem append_eq_ofNat_or (hi lo : Byte) : hi ++ lo = BitVec.ofNat 16 ((hi.toNat <<< 8) ||| lo.toNat) := by
  rw [← BitVec.toNat_append, BitVec.ofNat_toNat, BitVec.setWidth_eq]

theorem bytesUnit_little (x z : Byte) : bytesUnit .little x z = BitVec.ofNat 16 (x.toNat ||| (z.toNat <<< 8)) := by
  rw [Nat.or_comm]
  exact append_eq_ofNat_or z x

theorem bytesUnit_big (x z : Byte) : bytesUnit .big x z = BitVec.ofNat 16 ((x.toNat <<< 8) ||| z.toNat) :=
  append_eq_ofNat_or x z

/-! ### Serialization -/

@[simp] theorem toBytes_nil (o : ByteOrder) : toBytes [] o = [] := rfl

@[simp] theorem toBytes_cons (u : Word) (e : List Word) (o : ByteOrder) :
    toBytes (u :: e) o = unitBytes o u ++ toBytes e o :=
  List.flatMap_cons

theorem length_toBytes (e : List Word) (o : ByteOrder) : (toBytes e o).length = 2 * e.length := by
  induction e with
  | nil => rfl
  | cons u e ih => rw [toBytes_cons, List.length_append, length_unitBytes, ih, List.length_cons]; omega

/-- Byte `i` of unit `k` is at `2k + i`: the units before it take two bytes each. -/
theorem toBytes_getElem? {e : List Word} {k i : Nat} {u : Word} (o : ByteOrder) (hk : e[k]? = some u) (hi : i < 2) :
    (toBytes e o)[2 * k + i]? = (unitBytes o u)[i]? := by
  induction e generalizing k with
  | nil => cases hk
  | cons v e ih =>
    rw [toBytes_cons]
    cases k with
    | zero =>
      obtain rfl : v = u := Option.some.inj hk
      rw [Nat.mul_zero, Nat.zero_add, List.getElem?_append_left (by rwa [length_unitBytes])]
    | succ k =>
      have hpos : 2 * (k + 1) + i = (unitBytes o v).length + (2 * k + i) := by rw [length_unitBytes]; omega
      rw [hpos, List.getElem?_append_right (Nat.le_add_right _ _), Nat.add_sub_cancel_left]
      exact ih hk

/-- Settles O57: the place of a unit's two bytes, and each byte as a remainder or a quotient by 256. -/
theorem byteLayout : Obligations.ByteLayout := by
  intro e o
  refine ⟨length_toBytes e o, fun k u hk => ?_⟩
  have first (o : ByteOrder) : (toBytes e o)[2 * k]? = (unitBytes o u)[0]? := toBytes_getElem? o hk Nat.two_pos
  have second (o : ByteOrder) : (toBytes e o)[2 * k + 1]? = (unitBytes o u)[1]? :=
    toBytes_getElem? o hk Nat.one_lt_two
  rw [first, second, first, second, ← lowByte_eq_ofNat_mod, ← highByte_eq_ofNat_div]
  exact ⟨rfl, rfl, rfl, rfl⟩

/-! ### Deserialization -/

theorem length_pairBytes (o : ByteOrder) (y : List Byte) : (pairBytes o y).length = y.length / 2 := by
  induction y using pairBytes.induct with
  | case1 x z rest ih => rw [pairBytes, List.length_cons, ih, List.length_cons, List.length_cons]; omega
  | case2 y hshort =>
    match y with
    | [] => rfl
    | [_] => exact (Nat.div_eq_of_lt Nat.one_lt_two).symm
    | x :: z :: rest => exact absurd rfl (hshort x z rest)

/-- Unit `k` is made of the bytes at `2k` and `2k + 1`. -/
theorem pairBytes_getElem? {y : List Byte} {k : Nat} {x z : Byte} (o : ByteOrder) (hx : y[2 * k]? = some x)
    (hz : y[2 * k + 1]? = some z) : (pairBytes o y)[k]? = some (bytesUnit o x z) := by
  induction k generalizing y with
  | zero =>
    match y with
    | a :: b :: rest =>
      obtain rfl : a = x := Option.some.inj hx
      obtain rfl : b = z := Option.some.inj hz
      rfl
  | succ k ih =>
    match y with
    | _ :: _ :: rest => exact ih (y := rest) hx hz

theorem fromBytes_odd {y : List Byte} (o : ByteOrder) (hodd : y.length % 2 = 1) :
    fromBytes y o = .error (.oddLengthArtifact y.length) :=
  if_pos hodd

theorem fromBytes_even {y : List Byte} (o : ByteOrder) (heven : y.length % 2 = 0) :
    fromBytes y o = .ok (pairBytes o y) :=
  if_neg (by omega)

/-- Settles O58: an even number of bytes is read in pairs, and a pair is the shift and the bitwise or of its order. -/
theorem byteDeserialization : Obligations.ByteDeserialization := by
  intro y o
  refine ⟨fromBytes_odd o, fun heven => ⟨pairBytes o y, fromBytes_even o heven, length_pairBytes o y, ?_⟩, rfl⟩
  intro k x z hx hz
  rw [pairBytes_getElem? o hx hz]
  cases o with
  | little => exact congrArg some (bytesUnit_little x z)
  | big => exact congrArg some (bytesUnit_big x z)

end Sys2Proof.Machine
end

section
/-! PROOFS. The error a command reports (60_exceptions.md R117, R118): a record or a header that fails its own check
after a part that passes all of its checks decides the whole command, whatever follows it. -/

namespace Sys2Proof.Machine

/-! ### ENCODE -/

theorem encodeCommand_ragged {p : List Nat} (h : p.length % 4 ≠ 0) :
    encodeCommand p = .error (.raggedProgram p.length) :=
  if_pos ((raggedLength_iff _).2 h)

/-- The first bad record's first failing check is the command's error (R117). -/
theorem encodeCommand_bad_record {q r : List Nat} {t a b c : Nat} {units : List Word} {e : ErrorInfo}
    (hq : encodeCommand q = .ok units) (hr : r.length % 4 = 0) (he : recordError (q.length / 4) t a b c = some e) :
    encodeCommand (q ++ t :: a :: b :: c :: r) = .error e := by
  have hwhole : (t :: a :: b :: c :: r).length % 4 = 0 := by simp only [List.length_cons]; omega
  rw [encodeCommand_append (encodeCommand_ok_mod hq) hwhole, hq]
  simp only [encodeRecords, he]

/-- Settles O43: a ragged length is seen before any record; after records that encode, the next record's first failing
check in the order opcode, op1, op2, op3 is the error. -/
theorem encodeReportsFirstError : Obligations.EncodeReportsFirstError := by
  refine ⟨fun _ => encodeCommand_ragged, ?_⟩
  intro q r t a b c units _ hr hq p
  have reports {e : ErrorInfo} (he : recordError (q.length / 4) t a b c = some e) : encodeCommand p = .error e :=
    encodeCommand_bad_record hq hr he
  refine ⟨fun ht => reports ?_, fun ht ha => reports ?_, fun ht ha hb => reports ?_, fun ht ha hb hc => reports ?_⟩
  · rw [recordError_eq, if_pos ht]
  · rw [recordError_eq, if_neg ht.not_gt, if_pos ha]
  · rw [recordError_eq, if_neg ht.not_gt, if_neg ha.not_gt, if_pos hb]
  · rw [recordError_eq, if_neg ht.not_gt, if_neg ha.not_gt, if_neg hb.not_gt, if_pos hc]

/-! ### DECODE -/

/-- The first bad header's first failing check is the command's error (R118). -/
theorem decodeCommand_bad_header {q r units : List Word} {h : Word} {e : ErrorInfo} (hq : decodeCommand q = .ok units)
    (he : headerError q.length (hdrCnt h).toNat (q.length + (h :: r).length) = some e) :
    decodeCommand (q ++ h :: r) = .error e := by
  rw [decodeCommand_append hq]
  simp only [decodeUnits, he]

/-- Settles O44: after units that decode, the next header's count is checked first, then the units that remain. -/
theorem decodeReportsFirstError : Obligations.DecodeReportsFirstError := by
  intro q r h units hq
  refine ⟨fun hcnt => decodeCommand_bad_header hq (headerError_corrupt hcnt), fun hcnt hshort => ?_⟩
  have hends : q.length + (h :: r).length < q.length + 1 + (hdrCnt h).toNat := by rw [List.length_cons]; omega
  have hremain : q.length + (h :: r).length - q.length - 1 = r.length := by rw [List.length_cons]; omega
  exact decodeCommand_bad_header hq (by rw [headerError_truncated hcnt hends, hremain])

end Sys2Proof.Machine
end

section
/-! PROOFS. The encoding of instructions and its inverse (10_state.md R14, 30_encoding.md R50 to R59), and the header
that the encoder forms (R51) as one made of its fields. -/

namespace Sys2Proof

/-! ### Headers -/

/-- Settles O1: the commands carry their payload, and a header made of its fields gives them back. -/
theorem decodeEncodeIsIdentity : Obligations.DecodeEncodeIsIdentity := by
  intro i
  cases i with
  | encode p => exact Machine.decode_inProgress_encode p
  | decode u => exact Machine.decode_inProgress_decode u
  | operandWord v => rfl
  | _ rsv t => simp [encode, decode, decodeHeader]

/-- Only one instruction has a given header for its encoding. -/
theorem decodeHeader_eq_of_encode {h : Word} {i : Instr} (hi : encode i = .header h) : decodeHeader h = i :=
  Except.ok.inj ((congrArg decode hi).symm.trans (decodeEncodeIsIdentity i))

theorem encode_decodeHeader (h : Word) : encode (decodeHeader h) = .header h := by
  have hfields : makeHeader (hdrRsv h) (BitVec.ofNat 4 (hdrCnt h).toNat) (hdrType h) = h := by
    simpa using makeHeader_fields h
  have hlt := (hdrCnt h).isLt
  unfold decodeHeader
  generalize (hdrCnt h).toNat = n at hlt hfields ⊢
  interval_cases n <;> exact congrArg Fetched.header hfields

/-- The mask of the table's header rows fixes the count field (R52, R59). -/
theorem hdrCnt_eq_of_and {h : Word} {n : Nat} (hm : h &&& 0x0F00 = BitVec.ofNat 16 (n * 256)) :
    hdrCnt h = BitVec.ofNat 4 n := by
  have hmask : (h.toNat / 256 % 16) * 256 = n * 256 % 65536 := by
    rw [← Laws.and_0F00, ← BitVec.toNat_ofNat (w := 16), ← hm]
    rfl
  apply BitVec.eq_of_toNat_eq
  rw [hdrCnt_toNat, BitVec.toNat_ofNat]
  omega

/-- Settles O6: the mask fixes the count, and only the class with that count is encoded with the fields of `h`. -/
theorem headerClassByCount : Obligations.HeaderClassByCount := by
  intro h
  have cls {i : Instr} (n : Nat)
      (hi : encode i = .header (makeHeader (hdrRsv h) (BitVec.ofNat 4 n) (hdrType h)))
      (hm : h &&& 0x0F00 = BitVec.ofNat 16 (n * 256)) : decodeHeader h = i :=
    decodeHeader_eq_of_encode (by rw [hi, ← hdrCnt_eq_of_and hm, makeHeader_fields])
  exact ⟨cls 0 rfl, cls 1 rfl, cls 2 rfl, cls 3 rfl, cls 4 rfl, cls 5 rfl, cls 6 rfl, cls 7 rfl,
    cls 8 rfl, cls 9 rfl, cls 10 rfl, cls 11 rfl, cls 12 rfl, cls 13 rfl, cls 14 rfl, cls 15 rfl⟩

/-! ### Requests -/

/-- The command bit has two values (10_state.md R14). -/
theorem cmd_eq_zero_or_one : ∀ cmd : BitVec 1, cmd = 0 ∨ cmd = 1 := by decide

theorem decode_programRequest (p : List Nat) : decode (.request ⟨0, p⟩) = .ok (.encode p) :=
  Machine.decode_inProgress_encode p

theorem decode_streamRequest (u : List Word) : decode (.request ⟨1, u.map BitVec.toNat⟩) = .ok (.decode u) :=
  Machine.decode_inProgress_decode u

/-- A payload of 16-bit values is the one of the units it stands for. -/
theorem map_toNat_ofNat {payload : List Nat} (h : ∀ v ∈ payload, v < 65536) :
    (payload.map (BitVec.ofNat 16)).map BitVec.toNat = payload := by
  rw [List.map_map]
  exact (List.map_congr_left fun v hv => Nat.mod_eq_of_lt (h v hv)).trans payload.map_id

theorem wf_iff (r : Request) : r.wf = true ↔ r.cmd = 0 ∨ ∀ v ∈ r.payload, v < 65536 := by
  simp [Request.wf]

/-- A request is outside the port's domain by an element of a DECODE payload only (10_state.md R14). -/
theorem wf_eq_false_iff (r : Request) : r.wf = false ↔ r.cmd = 1 ∧ ∃ v ∈ r.payload, 65536 ≤ v := by
  have hcmd : r.cmd ≠ 0 ↔ r.cmd = 1 := by
    rcases cmd_eq_zero_or_one r.cmd with h | h <;> rw [h] <;> decide
  rw [← Bool.not_eq_true, wf_iff, ← hcmd]
  push Not
  rfl

/-- A request of the port's domain carries a program or a stream of units. -/
theorem request_of_wf {r : Request} (h : r.wf = true) :
    (∃ p, r = ⟨0, p⟩) ∨ (∃ u : List Word, r = ⟨1, u.map BitVec.toNat⟩) := by
  obtain ⟨cmd, payload⟩ := r
  rcases cmd_eq_zero_or_one cmd with rfl | rfl
  · exact .inl ⟨payload, rfl⟩
  · have hunits : ∀ v ∈ payload, v < 65536 := ((wf_iff _).1 h).resolve_left (by simp)
    exact .inr ⟨payload.map (BitVec.ofNat 16), by rw [map_toNat_ofNat hunits]⟩

/-- The decoder refuses a request exactly when it is outside the port's domain. -/
theorem decode_request_eq_error_iff (r : Request) : decode (.request r) = .error .payloadNotUnits ↔ r.wf = false := by
  cases hw : r.wf with
  | true =>
    rcases request_of_wf hw with ⟨p, rfl⟩ | ⟨u, rfl⟩
    · rw [decode_programRequest]; simp
    · rw [decode_streamRequest]; simp
  | false =>
    have hcmd : r.cmd ≠ 0 := by rw [((wf_eq_false_iff r).1 hw).1]; decide
    rw [decode, decodeRequest, if_neg hcmd, hw]
    simp

/-- Settles O3: headers and operand words all decode, and a request is refused by its domain check only. -/
theorem decoderRefusesOnlyNonUnitPayloads : Obligations.DecoderRefusesOnlyNonUnitPayloads := by
  intro f
  cases f with
  | request r => rw [decode_request_eq_error_iff, wf_eq_false_iff]; simp
  | header h => simp [decode]
  | operand v => simp [decode]

/-- Settles O2: a request of the port's domain is the encoding of its command, and a header of its class. -/
theorem encodeDecodeIsIdentity : Obligations.EncodeDecodeIsIdentity := by
  intro f i hd
  cases f with
  | header h => cases hd; exact encode_decodeHeader h
  | operand v => cases hd; rfl
  | request r =>
    have hw : r.wf = true := by
      rw [← Bool.not_eq_false, ← decode_request_eq_error_iff, hd]
      nofun
    rcases request_of_wf hw with ⟨p, rfl⟩ | ⟨u, rfl⟩
    · exact congrArg encode (Except.ok.inj (hd.symm.trans (decode_programRequest p)))
    · exact congrArg encode (Except.ok.inj (hd.symm.trans (decode_streamRequest u)))

/-- Settles O7: each item of the list is decoded. -/
theorem specWordsDecode : Obligations.SpecWordsDecode := by
  unfold Obligations.SpecWordsDecode
  decide

/-! ### The header that the encoder forms -/

namespace Machine

section FormedHeader

variable {t n : Nat} (ht : t ≤ 255) (hn : n ≤ 3)
include ht

/-- The opcode and the shifted count share no bit, so their bitwise or is their sum (30_encoding.md R51). -/
theorem or_shiftLeft_eq_add : t ||| (n <<< 8) = n * 256 + t := by
  have ht' : t < 2 ^ 8 := by omega
  rw [Nat.or_comm, ← Nat.shiftLeft_add_eq_or_of_lt ht', Nat.shiftLeft_eq]

theorem and_shiftLeft_eq_zero : t &&& (n <<< 8) = 0 := by
  apply Nat.eq_of_testBit_eq
  intro k
  rw [Nat.testBit_and, Nat.testBit_shiftLeft, Nat.zero_testBit]
  by_cases hk : 8 ≤ k
  · have hpow : 2 ^ 8 ≤ 2 ^ k := Nat.pow_le_pow_right (by decide) hk
    rw [Nat.testBit_lt_two_pow (by omega), Bool.false_and]
  · simp [hk]

include hn

theorem formHeader_toNat : (formHeader t n).toNat = n * 256 + t := by
  rw [formHeader, Config.cntLsb, or_shiftLeft_eq_add ht, BitVec.toNat_ofNat]
  exact Nat.mod_eq_of_lt (by omega)

/-- The encoder's header is made of a zero `rsv`, the count and the opcode. -/
theorem formHeader_eq_makeHeader : formHeader t n = makeHeader 0 (BitVec.ofNat 4 n) (BitVec.ofNat 8 t) := by
  apply BitVec.eq_of_toNat_eq
  rw [formHeader_toNat ht hn, makeHeader_toNat, BitVec.toNat_ofNat, BitVec.toNat_ofNat]
  show n * 256 + t = 0 * 4096 + n % 16 * 256 + t % 256
  omega

end FormedHeader

/-- Settles O5: the header is the number `n * 256 + t`, and its fields are quotients and remainders of that. -/
theorem formedHeaderFields : Obligations.FormedHeaderFields := by
  intro t n ht hn
  have hval := formHeader_toNat ht hn
  have field (lsb width : Nat) :
      ((formHeader t n).extractLsb' lsb width).toNat = (n * 256 + t) / 2 ^ lsb % 2 ^ width := by
    rw [BitVec.extractLsb'_toNat, hval, Nat.shiftRight_eq_div_pow]
  refine ⟨?_, ?_, ?_, BitVec.eq_of_toNat_eq ?_, BitVec.eq_of_toNat_eq ?_, ?_, and_shiftLeft_eq_zero ht⟩
  · rw [hval, or_shiftLeft_eq_add ht]
  · rw [field]; omega
  · rw [field]; omega
  · rw [field]; show _ = 0; omega
  · rw [field]; show _ = 0; omega
  · rw [hval]; omega

end Machine

end Sys2Proof
end

section
/-! PROOFS. Laws of the transaction view of the two commands (40_encoder.md R75, R80; 41_decoder.md R93, R94, R96):
programs and streams taken record by record. -/

namespace Sys2Proof.Machine

/-! ### Concatenation -/

/-- Settles O47: the records of `p ++ q` are those of `p`, then those of `q` numbered on from `len(p) / 4`. -/
theorem encodeConcatenation : Obligations.EncodeConcatenation := by
  intro p q hp hq
  have hshift := encodeRecords_shift q hq 0 (p.length / 4)
  rw [Nat.zero_add] at hshift
  rw [encodeCommand_append hp hq, hshift, encodeCommand_of_mod hq]
  refine ⟨fun e f he hf => ?_, fun info he => ?_, fun e info he hf => ?_⟩
  · rw [he, hf]
  · rw [he]
  · rw [he, hf]

/-- Settles O48: a stream that decodes alone decodes in the same way behind another one. -/
theorem decodeConcatenation : Obligations.DecodeConcatenation := by
  intro u v d f hu hv
  have hshifted : decodeUnits (u.length + v.length) u.length 0 v = .ok f := by
    simpa [Nat.add_comm] using decodeUnits_shift u.length v _ _ _ _ hv
  rw [decodeCommand_append hu, hshifted]

/-! ### Programs that encode -/

/-- A program that encodes, taken apart at its first record. -/
theorem encodeRecords_cons_ok {k t a b c : Nat} {rest : List Nat} {units : List Word}
    (h : encodeRecords k (t :: a :: b :: c :: rest) = .ok units) :
    recordError k t a b c = none ∧
      ∃ more, encodeRecords (k + 1) rest = .ok more ∧ units = recordUnits t a b c ++ more := by
  cases he : recordError k t a b c with
  | some e => simp [encodeRecords, he] at h
  | none =>
    cases hr : encodeRecords (k + 1) rest with
    | error e => simp [encodeRecords, he, hr] at h
    | ok more =>
      obtain rfl : recordUnits t a b c ++ more = units := by simpa [encodeRecords, he, hr] using h
      exact ⟨rfl, more, rfl, rfl⟩

/-- Elements that are not a whole record are no program that encodes, unless there are none. -/
theorem eq_nil_of_encodeRecords_ok {k : Nat} {p : List Nat} {units : List Word}
    (hshort : ∀ t a b c rest, p ≠ t :: a :: b :: c :: rest) (h : encodeRecords k p = .ok units) :
    p = [] ∧ units = [] := by
  match p with
  | [] => cases h; exact ⟨rfl, rfl⟩
  | [_] => simp [encodeRecords] at h
  | [_, _] => simp [encodeRecords] at h
  | [_, _, _] => simp [encodeRecords] at h
  | t :: a :: b :: c :: rest => exact absurd rfl (hshort t a b c rest)

theorem encodeRecords_of_encodeCommand {p : List Nat} {units : List Word} (h : encodeCommand p = .ok units) :
    encodeRecords 0 p = .ok units := by
  rwa [← encodeCommand_of_mod (encodeCommand_ok_mod h)]

/-- The units of one validated record decode to its opcode and its first `n` operands (41_decoder.md R94). -/
theorem decodeCommand_recordUnits {t : Nat} (a b c : Nat) (ht : t ≤ 255) :
    decodeCommand (recordUnits t a b c) =
      .ok ((t :: [a, b, c].take (operandCount a b c)).map (BitVec.ofNat 16)) := by
  have hn := operandCount_le a b c
  have hheader := formHeader_eq_makeHeader ht hn
  have hcnt : (hdrCnt (formHeader t (operandCount a b c))).toNat = operandCount a b c := by
    rw [hheader, hdrCnt_makeHeader, operandCount_latch]
  have htype : zext16 (hdrType (formHeader t (operandCount a b c))) = BitVec.ofNat 16 t := by
    rw [hheader, hdrType_makeHeader]
    apply BitVec.eq_of_toNat_eq
    rw [zext16, BitVec.toNat_setWidth, BitVec.toNat_ofNat, BitVec.toNat_ofNat]
    omega
  have hlen : ((selectOperands (operandCount a b c) a b c).map operandUnit).length = operandCount a b c := by
    simpa [selectOperands] using hn
  rw [recordUnits, decodeCommand_record _ _ (hlen.trans hcnt.symm) (by rwa [hcnt]), htype]
  rfl

/-- Settles O45: record by record, by the round trip of one record and the law of concatenation. -/
theorem decodeOfEncode : Obligations.DecodeOfEncode := by
  suffices hrecords : ∀ (p : List Nat) (k : Nat) (units : List Word), encodeRecords k p = .ok units →
      decodeCommand units = .ok ((recordsOf p).flatMap (fun r =>
        (r.1 :: [r.2.1, r.2.2.1, r.2.2.2].take (operandCount r.2.1 r.2.2.1 r.2.2.2)).map (BitVec.ofNat 16))) from
    fun p units h => hrecords p 0 units (encodeRecords_of_encodeCommand h)
  intro p
  induction p using recordsOf.induct with
  | case1 t a b c rest ih =>
    intro k units h
    obtain ⟨he, more, hmore, rfl⟩ := encodeRecords_cons_ok h
    obtain ⟨ht, -⟩ := recordError_eq_none.1 he
    rw [recordsOf, List.flatMap_cons]
    exact decodeConcatenation _ _ _ _ (decodeCommand_recordUnits a b c ht) (ih _ _ hmore)
  | case2 p hshort =>
    intro k units h
    obtain ⟨rfl, rfl⟩ := eq_nil_of_encodeRecords_ok hshort h
    rfl

/-! ### The length of an encoded stream -/

/-- The number of units of a record (40_encoder.md R71, R72). -/
def recordLength (r : Nat × Nat × Nat × Nat) : Nat := 1 + operandCount r.2.1 r.2.2.1 r.2.2.2

theorem length_of_encodeRecords {p : List Nat} {k : Nat} {units : List Word} (h : encodeRecords k p = .ok units) :
    units.length = ((recordsOf p).map recordLength).sum ∧ p.length = 4 * (recordsOf p).length := by
  induction p using recordsOf.induct generalizing k units with
  | case1 t a b c rest ih =>
    obtain ⟨-, more, hmore, rfl⟩ := encodeRecords_cons_ok h
    obtain ⟨hunits, hlen⟩ := ih hmore
    rw [recordsOf, List.map_cons, List.sum_cons, List.length_append, recordUnits_length, hunits]
    simp only [List.length_cons, hlen, recordLength, true_and]
    omega
  | case2 p hshort =>
    obtain ⟨rfl, rfl⟩ := eq_nil_of_encodeRecords_ok hshort h
    exact ⟨rfl, rfl⟩

theorem operandCount_eq_three_iff (a b c : Nat) : operandCount a b c = 3 ↔ a ≠ 0 ∧ b ≠ 0 ∧ c ≠ 0 := by
  rw [operandCount_eq_sum]
  split_ifs <;> simp_all

/-- Each record has one to four units, so their sum is bounded by the number of records, and it is largest exactly when
every record has four. -/
theorem sum_recordLength_bounds (rs : List (Nat × Nat × Nat × Nat)) :
    rs.length ≤ (rs.map recordLength).sum ∧ (rs.map recordLength).sum ≤ 4 * rs.length ∧
    ((rs.map recordLength).sum = 4 * rs.length ↔ ∀ r ∈ rs, r.2.1 ≠ 0 ∧ r.2.2.1 ≠ 0 ∧ r.2.2.2 ≠ 0) := by
  induction rs with
  | nil => simp
  | cons r rs ih =>
    obtain ⟨hlow, hhigh, hall⟩ := ih
    have hr := operandCount_le r.2.1 r.2.2.1 r.2.2.2
    rw [List.map_cons, List.sum_cons, List.length_cons, List.forall_mem_cons, ← hall, ← operandCount_eq_three_iff]
    simp only [recordLength] at *
    omega

/-- Settles O46: the sum over the records, and its bounds. -/
theorem encodedLength : Obligations.EncodedLength := by
  intro p units h
  obtain ⟨hunits, hlen⟩ := length_of_encodeRecords (encodeRecords_of_encodeCommand h)
  obtain ⟨hlow, hhigh, hall⟩ := sum_recordLength_bounds (recordsOf p)
  rw [← hunits, ← hlen] at hall hhigh
  exact ⟨hunits, by omega, hhigh, hall⟩

/-! ### The shape of a decoded stream -/

/-- Position `k` is a header position of units whose first `skip` are operand words of an earlier header
(30_encoding.md R57). -/
def HeaderAt (skip : Nat) (u : List Word) (k : Nat) : Prop := ∃ m, k = skip + m ∧ HeaderPosition (u.drop skip) m

theorem headerAt_zero (u : List Word) (k : Nat) : HeaderAt 0 u k ↔ HeaderPosition u k := by
  simp [HeaderAt]

theorem not_headerAt_succ_zero (skip : Nat) (u : List Word) : ¬ HeaderAt (skip + 1) u 0 := by
  rintro ⟨m, hm, -⟩
  omega

theorem headerAt_succ_cons (skip : Nat) (x : Word) (u : List Word) (k : Nat) :
    HeaderAt (skip + 1) (x :: u) (k + 1) ↔ HeaderAt skip u k := by
  rw [HeaderAt, HeaderAt, List.drop_succ_cons]
  exact exists_congr fun m => and_congr_left' (by omega)

/-- The walk over the headers begins with the first one, and goes on past its operand words. -/
theorem headerPosition_cons (x : Word) (u : List Word) (k : Nat) : HeaderPosition (x :: u) k ↔
    k = 0 ∨ ∃ m, k = 1 + (hdrCnt x).toNat + m ∧ HeaderPosition (u.drop (hdrCnt x).toNat) m := by
  have hdrop (m : Nat) : (x :: u)[1 + (hdrCnt x).toNat + m]? = (u.drop (hdrCnt x).toNat)[m]? := by
    rw [List.getElem?_drop, Nat.add_comm 1, Nat.add_right_comm, List.getElem?_cons_succ]
  constructor
  · intro h
    induction h with
    | first => exact .inl rfl
    | following _ hy ih =>
      rcases ih with rfl | ⟨m, rfl, hm⟩
      · obtain rfl := Option.some.inj hy
        exact .inr ⟨0, by omega, .first⟩
      · rw [hdrop] at hy
        exact .inr ⟨_, by omega, .following hm hy⟩
  · rintro (rfl | ⟨m, rfl, hm⟩)
    · exact .first
    · induction hm with
      | first => simpa [Nat.add_comm] using HeaderPosition.following (.first (stream := x :: u)) rfl
      | following _ hy ih =>
        rw [← hdrop] at hy
        simpa only [Nat.add_assoc] using HeaderPosition.following ih hy

theorem headerAt_zero_cons_succ (x : Word) (u : List Word) (k : Nat) :
    HeaderAt 0 (x :: u) (k + 1) ↔ HeaderAt (hdrCnt x).toNat u k := by
  rw [headerAt_zero, headerPosition_cons]
  simp only [Nat.succ_ne_zero, false_or, HeaderAt]
  exact exists_congr fun m => and_congr_left' (by omega)

/-- What a decoded stream holds where the stream holds `x`. -/
def DecodedAt (header : Prop) (x : Word) (y : Option Word) : Prop :=
  (header → y = some (x &&& 0x00FF)) ∧ (¬ header → y = some x)

/-- A header's unit decodes to its low byte, and an operand word to itself, whatever the check of the headers. -/
theorem decodeUnits_shape (u : List Word) : ∀ {len j skip : Nat} {d : List Word},
    decodeUnits len j skip u = .ok d →
    d.length = u.length ∧ ∀ k x, u[k]? = some x → DecodedAt (HeaderAt skip u k) x d[k]? := by
  induction u with
  | nil =>
    intro len j skip d h
    obtain rfl : [] = d := by simpa [decodeUnits] using h
    exact ⟨rfl, by simp⟩
  | cons v rest ih =>
    intro len j skip d h
    cases skip with
    | succ skip =>
      cases hr : decodeUnits len (j + 1) skip rest with
      | error e => simp [decodeUnits, hr] at h
      | ok more =>
        obtain rfl : v :: more = d := by simpa [decodeUnits, hr] using h
        obtain ⟨hlen, hat⟩ := ih hr
        refine ⟨by simp [hlen], fun k x hk => ?_⟩
        cases k with
        | zero =>
          obtain rfl := Option.some.inj hk
          exact ⟨fun hh => absurd hh (not_headerAt_succ_zero skip _), fun _ => rfl⟩
        | succ k => rw [headerAt_succ_cons]; exact hat k x hk
    | zero =>
      cases he : headerError j (hdrCnt v).toNat len with
      | some e => simp [decodeUnits, he] at h
      | none =>
        cases hr : decodeUnits len (j + 1) (hdrCnt v).toNat rest with
        | error e => simp [decodeUnits, he, hr] at h
        | ok more =>
          obtain rfl : zext16 (hdrType v) :: more = d := by simpa [decodeUnits, he, hr] using h
          obtain ⟨hlen, hat⟩ := ih hr
          refine ⟨by simp [hlen], fun k x hk => ?_⟩
          cases k with
          | zero =>
            obtain rfl := Option.some.inj hk
            exact ⟨fun _ => congrArg some (and_00FF_eq_zext16_hdrType v).symm,
              fun hh => absurd ((headerAt_zero _ _).2 .first) hh⟩
          | succ k => rw [headerAt_zero_cons_succ]; exact hat k x hk

theorem decodeCommand_length {u d : List Word} (h : decodeCommand u = .ok d) : d.length = u.length :=
  (decodeUnits_shape u h).1

/-- Settles O49: a stream begins at a header position. -/
theorem decodedShape : Obligations.DecodedShape := by
  intro u d h
  obtain ⟨hlen, hat⟩ := decodeUnits_shape u h
  simp only [headerAt_zero] at hat
  exact ⟨hlen, hat⟩

end Sys2Proof.Machine
end

section
/-! PROOFS. What the port, a command and a header class answer in each case (10_state.md R23, R29, R30; 41_decoder.md
R83 to R88; 60_exceptions.md R109, R116): acceptances, response steps, the stops, and the meaning of a header unit. -/

namespace Sys2Proof.Machine

/-! ### The step and the request port -/

/-- Settles O8: the four cases of the fetch. -/
theorem stepRunsDecodedInstruction : Obligations.StepRunsDecodedInstruction := by
  refine ⟨fun s r rest i => step_idle_request, fun s w => step_enc, ?_, fun s w => step_dec_other⟩
  intro s w h i hs hst hh hi
  cases hi
  exact step_dec_header hs hst hh

/-- Settles O10: the fields of the state after reset. -/
theorem resetStateIsIdle : Obligations.ResetStateIsIdle :=
  fun _ => ⟨rfl, rfl, rfl, rfl, rfl, rfl⟩

/-- Settles O54: the fields of the state after a reset event. -/
theorem resetAbandonsOperation : Obligations.ResetAbandonsOperation :=
  fun _ => ⟨rfl, rfl, rfl, rfl, rfl, rfl⟩

/-- Settles O52: the code of each kind, and the responses of the two results. -/
theorem errorCodes : Obligations.ErrorCodes :=
  ⟨fun _ _ => rfl, fun _ _ _ => rfl, fun _ _ _ => rfl, fun _ _ => rfl, fun _ => rfl, fun _ => rfl, fun _ => rfl,
    fun _ => ⟨rfl, rfl⟩⟩

theorem offer_not_wf {r : Request} (s : State) (hw : r.wf = false) : s.offer r = .refused .payloadNotUnits :=
  if_pos hw

/-- Settles O9: a block without a request waits, and a request outside the domain is refused by the port and, at
its head, by the decoder. -/
theorem idleInstanceWithoutUsableRequest : Obligations.IdleInstanceWithoutUsableRequest :=
  ⟨fun _ => step_idle_wait, fun s _ => offer_not_wf s,
    fun _ r _ hs hq hw => step_idle_reject hs hq ((decode_request_eq_error_iff r).2 hw)⟩

theorem admits_of_bound {ps : Params} {m : Nat} (hm : ps.maxInputLen = some m) (len : Nat) :
    ps.admits len = decide (len ≤ m) := by
  rw [Params.admits, hm]

theorem admits_of_unbounded {ps : Params} (hm : ps.maxInputLen = none) (len : Nat) : ps.admits len = true := by
  rw [Params.admits, hm]

/-- A command is refused on an IDLE block whose length limit its payload exceeds (60_exceptions.md R116). -/
theorem exec_encode_refused {s : State} {p : List Nat} (hs : s.op = .idle) (ha : s.params.admits p.length = false) :
    exec (.encode p) s = .refused (.overLongRequest p.length) := by
  rw [exec_encode_idle p hs]
  exact acceptWith_refused ha

theorem exec_decode_refused {s : State} {u : List Word} (hs : s.op = .idle) (ha : s.params.admits u.length = false) :
    exec (.decode u) s = .refused (.overLongRequest u.length) := by
  rw [exec_decode_idle u hs]
  exact acceptWith_refused ha

/-- Settles O12: the port, each command and the step make one and the same length check. -/
theorem overLongRequestRefused : Obligations.OverLongRequestRefused := by
  have exceeds {s : State} {m len : Nat} (hm : s.params.maxInputLen = some m) (hlen : m < len) :
      s.params.admits len = false := by
    rw [admits_of_bound hm, decide_eq_false (Nat.not_le.2 hlen)]
  refine ⟨fun s r m hw hm => ⟨fun hlen => ?_, fun hlen => ?_⟩, fun s m hs hm => ⟨fun p hlen => ?_, fun u hlen => ?_⟩,
    fun s r rest m hs hq hw hm hlen => ?_, fun s hm => ⟨fun r hw => ?_, fun hs => ⟨fun p => ?_, fun u => ?_⟩⟩⟩
  · simp [applyEvent, State.offer, hw, exceeds hm hlen]
  · exact offer_taken hw (by rw [admits_of_bound hm, decide_eq_true hlen])
  · exact exec_encode_refused hs (exceeds hm hlen)
  · exact exec_decode_refused hs (exceeds hm hlen)
  · have hlong := exceeds hm hlen
    rcases request_of_wf hw with ⟨p, rfl⟩ | ⟨u, rfl⟩
    · rw [step_idle_request hs hq (decode_programRequest p)]
      exact exec_encode_refused hs hlong
    · rw [step_idle_request hs hq (decode_streamRequest u)]
      rw [List.length_map] at hlong ⊢
      exact exec_decode_refused hs hlong
  · exact offer_taken hw (admits_of_unbounded hm _)
  · exact ⟨_, encodeAcceptance s p hs (admits_of_unbounded hm _)⟩
  · exact ⟨_, decodeAcceptance s u hs (admits_of_unbounded hm _)⟩

/-! ### The response step -/

/-- A running operation has no response to deliver (10_state.md R23). -/
theorem st_ne_run_of_response {st : Status} {out : List Word} {r : Response} (hr : st.response out = some r) :
    st ≠ .run := by
  rintro rfl
  cases hr

theorem exec_encode_response {s : State} {w : EncWork} {r : Response} (hs : s.op = .enc w)
    (hr : w.st.response w.out = some r) : exec (.encode w.input) s = .next (s.deliver r).endStep := by
  rw [← respond_ready (s := s) (by rw [hs]; exact hr)]
  cases hst : w.st with
  | run => exact absurd hst (st_ne_run_of_response hr)
  | done => exact exec_encode_done hs hst
  | fault code info => simp only [exec, execEncode, hs, hst, if_true]

theorem exec_decode_response {s : State} {w : DecWork} {r : Response} (hs : s.op = .dec w)
    (hr : w.st.response w.out = some r) : exec (.decode w.input) s = .next (s.deliver r).endStep := by
  rw [← respond_ready (s := s) (by rw [hs]; exact hr)]
  cases hst : w.st with
  | run => exact absurd hst (st_ne_run_of_response hr)
  | done => exact exec_decode_done hs hst
  | fault code info => simp only [exec, execDecode, hs, hst, if_true]

theorem step_enc_response {s : State} {w : EncWork} {r : Response} (hs : s.op = .enc w)
    (hr : w.st.response w.out = some r) : step s = .next (s.deliver r).endStep := by
  rw [step_enc hs, exec_encode_response hs hr]

theorem step_dec_response {s : State} {w : DecWork} {r : Response} (hs : s.op = .dec w)
    (hr : w.st.response w.out = some r) : step s = .next (s.deliver r).endStep := by
  rw [step_dec_other hs (.inl (st_ne_run_of_response hr)), exec_decode_response hs hr]

/-- Settles O15: each terminal status has its response. -/
theorem responseStep : Obligations.ResponseStep :=
  ⟨fun _ _ hs => ⟨fun hst => exec_encode_response hs (by rw [hst]; rfl),
      fun _ _ hst => exec_encode_response hs (by rw [hst]; rfl)⟩,
    fun _ _ hs => ⟨fun hst => exec_decode_response hs (by rw [hst]; rfl),
      fun _ _ hst => exec_decode_response hs (by rw [hst]; rfl)⟩⟩

/-- Settles O53: the raise by its definition, and the response step of the FAULT status it leaves. -/
theorem raiseAndReturn : Obligations.RaiseAndReturn := by
  refine ⟨fun s w e hs => ?_, fun s w e hs => ?_⟩
  · have hraise : s.raise e = { s with op := .enc ⟨w.input, w.i, Config.freeOut s.fresh, .fault e.code e⟩ } := by
      rw [State.raise, hs]; rfl
    exact ⟨hraise, by rw [hraise]; exact step_enc_response rfl rfl⟩
  · have hraise : s.raise e = { s with op := .dec ⟨w.input, w.j, Config.freeOut s.fresh, .fault e.code e⟩ } := by
      rw [State.raise, hs]; rfl
    exact ⟨hraise, by rw [hraise]; exact step_dec_response rfl rfl⟩

/-! ### Header units and operand words -/

/-- Settles O24: the arm's body where a header step is due. -/
theorem operandWordCopied : Obligations.OperandWordCopied :=
  fun _ _ _ hs hst hj => onHeaderStep_due hs hst hj

/-- Settles O25: both are the header step of the unit at the cursor. -/
theorem classMeaningsAgreeWithHeaderStep : Obligations.ClassMeaningsAgreeWithHeaderStep := by
  intro s w h hs hst hh
  rw [exec_decodeHeader_due hs hst (lt_of_get hh), exec_decode_header hs hst hh]

/-- Two bodies that agree on the working state of the operation have the same header step. -/
theorem onHeaderStep_congr {body body' : DecWork → StepOutcome} {s : State}
    (h : ∀ w, s.op = .dec w → body w = body' w) : onHeaderStep body s = onHeaderStep body' s := by
  cases hs : s.op with
  | idle => simp only [onHeaderStep, hs]
  | enc w => simp only [onHeaderStep, hs]
  | dec w => simp only [onHeaderStep, hs, h w hs]

/-- The header latch is overwritten at the step boundary and no check reads it (10_state.md R20). -/
theorem headerStep_header_irrelevant (h h' : Word) (t : Opcode) {n : Nat} {w : DecWork} {s : State} (hn : n < 16)
    (hs : s.op = .dec w) : headerStep h t n w s = headerStep h' t n w s := by
  cases he : headerError w.j n w.input.length with
  | none => rw [headerStep_ok hn he, headerStep_ok hn he]
  | some e => rw [headerStep_error hn hs he, headerStep_error hn hs he]

/-- Settles O26: `rsv` reaches nothing but the header latch, and the transaction reads count and type only. -/
theorem reservedBitsIgnored : Obligations.ReservedBitsIgnored := by
  refine ⟨fun t n ht hn => ?_, fun s h h' hcnt htype => ?_, by decide, by decide, fun u rsv n t => ?_⟩
  · rw [formHeader_eq_makeHeader ht hn, hdrRsv_makeHeader]
  · rw [exec_decodeHeader, exec_decodeHeader, hcnt, htype]
    exact onHeaderStep_congr fun w hs => headerStep_header_irrelevant _ _ _ (hdrCnt h').isLt hs
  · simp only [decodeCommand, decodeUnits, hdrCnt_makeHeader, hdrType_makeHeader, List.length_cons]

/-! ### Where there is no step -/

/-- Every header and operand word runs a body where a header step is due, and nothing else. -/
theorem exec_word_eq_onHeaderStep {i : Instr} (hp : ∀ p, i ≠ .encode p) (hu : ∀ u, i ≠ .decode u) (s : State) :
    ∃ body, exec i s = onHeaderStep body s := by
  cases i with
  | encode p => exact absurd rfl (hp p)
  | decode u => exact absurd rfl (hu u)
  | _ => exact ⟨_, rfl⟩

theorem onHeaderStep_not_due {body : DecWork → StepOutcome} {s : State}
    (h : ∀ w, s.op = .dec w → w.st = .run → w.input.length ≤ w.j) : onHeaderStep body s = .fault .noRecordStep := by
  cases hs : s.op with
  | idle => simp only [onHeaderStep, hs]
  | enc w => simp only [onHeaderStep, hs]
  | dec w =>
    cases hst : w.st with
    | run => simp only [onHeaderStep, hs, hst, if_neg (Nat.not_lt.2 (h w hs hst))]
    | done => simp only [onHeaderStep, hs, hst]
    | fault code info => simp only [onHeaderStep, hs, hst]

theorem readRecord_eq_none {input : List Nat} {i : Nat} (h : input.length < i + 4) : readRecord input i = none := by
  refine Option.eq_none_iff_forall_ne_some.2 fun r hr => ?_
  obtain ⟨-, -, hle⟩ := take_succ_record (t := r.1) (a := r.2.1) (b := r.2.2.1) (c := r.2.2.2) hr
  omega

/-- Settles O27: outside a header step a word has no body to run, and a cursor past its last record finds nothing. -/
theorem stopsWhereNoStepIsDue : Obligations.StopsWhereNoStepIsDue := by
  refine ⟨fun s i hp hu hdue => ?_, fun s w hs hst hne hlen => ?_, fun s w hs hst hlen => ?_⟩
  · obtain ⟨body, hbody⟩ := exec_word_eq_onHeaderStep hp hu s
    rw [hbody, onHeaderStep_not_due hdue]
  · rcases Nat.lt_or_ge w.i w.input.length with hi | hi
    · rw [exec_encode_record hs hst hi, encRec, readRecord_eq_none hlen]
    · simp only [exec, execEncode, hs, hst, if_true, if_neg (Nat.not_lt.2 hi), if_neg hne]
  · simp only [exec, execDecode, hs, hst, if_true, if_neg hlen.not_gt, if_neg hlen.ne']

end Sys2Proof.Machine
end

section
/-! PROOFS. Frames (20_memory.md R33, R35, R47; 10_state.md R25, R30): what an instruction, and what a step, leaves
unchanged. Whatever an instruction does, it writes the operation, or it delivers the response that is ready. -/

namespace Sys2Proof.Machine

/-! ### Instructions -/

/-- What an instruction may leave behind: another operation while nothing is ready to deliver, or the delivery. -/
def WritesOrDelivers (s t : State) : Prop :=
  (s.op.response = none ∧ ∃ o, t = (s.setOp o).endStep) ∨
  (∃ r, s.op.response = some r ∧ t = (s.deliver r).endStep)

theorem response_of_enc {s : State} {w : EncWork} (hs : s.op = .enc w) : s.op.response = w.st.response w.out := by
  rw [hs]; rfl

theorem response_of_dec {s : State} {w : DecWork} (hs : s.op = .dec w) : s.op.response = w.st.response w.out := by
  rw [hs]; rfl

theorem exec_encode_writesOrDelivers {p : List Nat} {s t : State} (h : exec (.encode p) s = .next t) :
    WritesOrDelivers s t := by
  rcases execEncode_next h with ⟨hs, -, ht⟩ | ⟨w, hs, -, ⟨hst, -, hrec⟩ | ⟨hst, -, ht⟩ | ⟨r, hr, ht⟩⟩
  · exact .inl ⟨by rw [hs]; rfl, _, ht⟩
  · have hnone : s.op.response = none := by rw [response_of_enc hs, hst]; rfl
    obtain ⟨_, _, _, _, -, ⟨-, ht⟩ | ⟨_, -, ht⟩⟩ := encRec_next hs hrec
    · exact .inl ⟨hnone, _, ht⟩
    · exact .inl ⟨hnone, _, ht⟩
  · exact .inl ⟨by rw [response_of_enc hs, hst]; rfl, _, ht⟩
  · exact .inr ⟨r, (response_of_enc hs).trans hr, ht⟩

theorem exec_decode_writesOrDelivers {u : List Word} {s t : State} (h : exec (.decode u) s = .next t) :
    WritesOrDelivers s t := by
  rcases execDecode_next h with ⟨hs, -, ht⟩ | ⟨w, hs, -, ⟨x, hst, -, hrec⟩ | ⟨hst, -, ht⟩ | ⟨r, hr, ht⟩⟩
  · exact .inl ⟨by rw [hs]; rfl, _, ht⟩
  · have hnone : s.op.response = none := by rw [response_of_dec hs, hst]; rfl
    rcases headerStep_cases x (hdrType x) (hdrCnt x).isLt hs with ⟨-, hstep⟩ | ⟨_, -, hstep⟩
    · rw [hstep] at hrec; cases hrec; exact .inl ⟨hnone, _, rfl⟩
    · rw [hstep] at hrec; cases hrec; exact .inl ⟨hnone, _, rfl⟩
  · exact .inl ⟨by rw [response_of_dec hs, hst]; rfl, _, ht⟩
  · exact .inr ⟨r, (response_of_dec hs).trans hr, ht⟩

theorem exec_word_writesOrDelivers {i : Instr} {s t : State} (hp : ∀ p, i ≠ .encode p) (hu : ∀ u, i ≠ .decode u)
    (h : exec i s = .next t) : WritesOrDelivers s t := by
  obtain ⟨w, hs, hst, -, hres⟩ := execWord_next hp hu h
  refine .inl ⟨by rw [response_of_dec hs, hst]; rfl, ?_⟩
  rcases hres with ⟨_, _, -, -, ht⟩ | ⟨_, ht⟩ | ⟨_, ht⟩
  · exact ⟨_, ht⟩
  · exact ⟨_, ht⟩
  · exact ⟨_, ht⟩

theorem exec_writesOrDelivers {i : Instr} {s t : State} (h : exec i s = .next t) : WritesOrDelivers s t := by
  cases i with
  | encode p => exact exec_encode_writesOrDelivers h
  | decode u => exact exec_decode_writesOrDelivers h
  | _ => exact exec_word_writesOrDelivers (by simp) (by simp) h

/-- Settles O29: neither a write of the operation nor a delivery touches the parameters or the request port. -/
theorem instructionFrame : Obligations.InstructionFrame := by
  intro i s t h
  rcases exec_writesOrDelivers h with ⟨-, o, rfl⟩ | ⟨r, hr, rfl⟩
  · exact ⟨rfl, rfl, .inl rfl⟩
  · exact ⟨rfl, rfl, .inr ⟨r, hr, rfl, rfl⟩⟩

/-- Settles O30: a word appends the units its cursor passes, or raises with the cursor where it was. -/
theorem headerInstructionFrame : Obligations.HeaderInstructionFrame := by
  intro i s t hp hu h
  obtain ⟨w, hs, hst, -, hres⟩ := execWord_next hp hu h
  have kept (more : List Word) (k : Nat) (hk : k < w.out.length) : (w.out ++ more)[k]? = w.out[k]? :=
    List.getElem?_append_left hk
  rcases hres with ⟨n, opcode, -, hl, rfl⟩ | ⟨e, rfl⟩ | ⟨v, rfl⟩
  · refine ⟨rfl, rfl, rfl, w, _, hs, rfl, rfl, .inr ⟨hst, ?_, ?_, kept _⟩⟩
    · show w.j < w.j + 1 + n
      omega
    · rw [List.length_append, List.length_cons, operandWords_length hl]
      show _ = w.out.length + (w.j + 1 + n - w.j)
      omega
  · exact ⟨rfl, rfl, rfl, w, _, hs, rfl, rfl, .inl ⟨_, _, rfl, rfl⟩⟩
  · refine ⟨rfl, rfl, rfl, w, _, hs, rfl, rfl, .inr ⟨hst, Nat.lt_succ_self _, ?_, kept _⟩⟩
    rw [copyOperand_out, copyOperand_j, List.length_append, Nat.add_sub_cancel_left]
    rfl

/-! ### Steps -/

/-- The step of a busy block runs one instruction, in the same state. -/
theorem step_busy_exec {s : State} (hs : s.op ≠ .idle) : ∃ i, step s = exec i s := by
  cases hop : s.op with
  | idle => exact absurd hop hs
  | enc w => exact ⟨_, step_enc hop⟩
  | dec w =>
    rcases eq_or_ne w.st .run with hst | hst
    · rcases Nat.lt_or_ge w.j w.input.length with hj | hj
      · exact ⟨_, step_dec_header hop hst (List.getElem?_eq_getElem hj)⟩
      · exact ⟨_, step_dec_other hop (.inr hj)⟩
    · exact ⟨_, step_dec_other hop (.inl hst)⟩

/-- Settles O32: the acceptance takes the head of the port and delivers nothing; a busy step runs one instruction. -/
theorem stepFrame : Obligations.StepFrame := by
  intro s t h
  by_cases hs : s.op = .idle
  · have hnone : s.op.response.toList = [] := by rw [hs]; rfl
    rw [hnone, List.append_nil]
    rcases step_idle_next hs h with ⟨hq, rfl⟩ | ⟨r, rest, p, hq, -, -, rfl⟩ | ⟨r, rest, u, hq, -, -, rfl⟩
    · exact ⟨rfl, rfl, fun _ => by rw [hq]; rfl, fun _ => rfl⟩
    · exact ⟨rfl, rfl, fun _ => by rw [hq]; rfl, fun hbusy => absurd hs hbusy⟩
    · exact ⟨rfl, rfl, fun _ => by rw [hq]; rfl, fun hbusy => absurd hs hbusy⟩
  · obtain ⟨i, hi⟩ := step_busy_exec hs
    rcases exec_writesOrDelivers (hi.symm.trans h) with ⟨hnone, o, rfl⟩ | ⟨r, hr, rfl⟩
    · exact ⟨rfl, by rw [hnone]; exact (List.append_nil _).symm, fun hidle => absurd hidle hs, fun _ => rfl⟩
    · exact ⟨rfl, by rw [hr]; rfl, fun hidle => absurd hidle hs, fun _ => rfl⟩

/-- Settles O28: a busy block compares the command with the one in progress, and its step is no acceptance. -/
theorem otherCommandHeldWhileBusy : Obligations.OtherCommandHeldWhileBusy := by
  refine ⟨fun s w hs => ⟨fun p hp => ?_, fun u => ?_⟩, fun s w hs => ⟨fun u hu => ?_, fun p => ?_⟩, fun s t hs h => ?_⟩
  · simp only [exec, execEncode, hs, if_neg hp.symm]
  · simp only [exec, execDecode, hs]
  · simp only [exec, execDecode, hs, if_neg hu.symm]
  · simp only [exec, execEncode, hs]
  · obtain ⟨-, -, -, hbusy⟩ := stepFrame s t h
    exact hbusy hs

/-- Settles O31: each result of a busy step keeps the snapshot, and appends, raises or ends the operation. -/
theorem snapshotNeverWritten : Obligations.SnapshotNeverWritten := by
  refine ⟨fun s t w hs h => ?_, fun s t w hs h => ?_⟩
  · rcases step_enc_next hs h with
      ⟨_, _, _, _, -, -, -, rfl⟩ | ⟨_, _, _, _, _, -, -, -, rfl⟩ | ⟨-, -, rfl⟩ | ⟨_, -, rfl⟩
    · exact .inr ⟨_, rfl, rfl, Nat.le_add_right _ _, .inr ⟨_, rfl⟩⟩
    · exact .inr ⟨_, rfl, rfl, le_rfl, .inl ⟨_, _, rfl⟩⟩
    · exact .inr ⟨_, rfl, rfl, le_rfl, .inr ⟨[], (List.append_nil _).symm⟩⟩
    · exact .inl rfl
  · rcases step_dec_next hs h with ⟨_, -, -, -, rfl⟩ | ⟨_, _, -, -, -, rfl⟩ | ⟨-, -, rfl⟩ | ⟨_, -, rfl⟩
    · exact .inr ⟨_, rfl, rfl, (Nat.le_succ _).trans (Nat.le_add_right _ _), .inr ⟨_, rfl⟩⟩
    · exact .inr ⟨_, rfl, rfl, le_rfl, .inl ⟨_, _, rfl⟩⟩
    · exact .inr ⟨_, rfl, rfl, le_rfl, .inr ⟨[], (List.append_nil _).symm⟩⟩
    · exact .inl rfl

end Sys2Proof.Machine
end

section
/-! PROOFS. The invariant (10_state.md R21, R22; 41_decoder.md R93): it holds after reset, every step, offer and reset
keeps it, and it gives the cursors' ranges and a next step in every state. -/

namespace Sys2Proof.Machine

/-! ### The operation in progress -/

theorem operationSound_of_idle {s : State} (hs : s.op = .idle) : s.OperationSound := by
  rw [State.OperationSound, hs]
  trivial

theorem operationSound_enc {s : State} {w : EncWork} (hs : s.op = .enc w) :
    s.OperationSound ↔ s.params.admits w.input.length = true ∧ w.Sound := by
  rw [State.OperationSound, hs]

theorem operationSound_dec {s : State} {w : DecWork} (hs : s.op = .dec w) :
    s.OperationSound ↔ s.params.admits w.input.length = true ∧ w.Sound := by
  rw [State.OperationSound, hs]

theorem operationSound_setOp_enc {s : State} {w : EncWork} :
    (s.setOp (.enc w)).endStep.OperationSound ↔ s.params.admits w.input.length = true ∧ w.Sound :=
  Iff.rfl

theorem operationSound_setOp_dec {s : State} {w : DecWork} :
    (s.setOp (.dec w)).endStep.OperationSound ↔ s.params.admits w.input.length = true ∧ w.Sound :=
  Iff.rfl

/-- An accepted program is sound: nothing is encoded yet, or it is ragged (40_encoder.md R66). -/
theorem startedEncode_sound (p : List Nat) (s : State) :
    (startedEncode p s).Sound ∧ (startedEncode p s).input = p := by
  rw [startedEncode]
  split_ifs with hp
  · exact ⟨⟨Nat.zero_mod 4, Nat.zero_le _, rfl, encodeCommand_ragged hp⟩, rfl⟩
  · exact ⟨⟨Nat.zero_mod 4, Nat.zero_le _, not_not.1 hp, rfl⟩, rfl⟩

/-- An accepted stream is sound: nothing is decoded yet. -/
theorem startedDecode_sound (u : List Word) : DecWork.Sound ⟨u, 0, [], .run⟩ :=
  ⟨Nat.zero_le _, rfl⟩

theorem idleResult_keeps_operationSound {s t : State} (hs : s.op = .idle) (h : IdleResult s t) :
    t.OperationSound := by
  rcases h with ⟨-, rfl⟩ | ⟨r, rest, p, -, -, hadm, rfl⟩ | ⟨r, rest, u, -, -, hadm, rfl⟩
  · exact operationSound_of_idle hs
  · obtain ⟨hsound, hinput⟩ := startedEncode_sound p s
    exact operationSound_setOp_enc.2 ⟨by rwa [hinput], hsound⟩
  · exact operationSound_setOp_dec.2 ⟨hadm, startedDecode_sound u⟩

/-- Each result of an encoder's step is sound: a record more, its error, the whole output, or IDLE. -/
theorem encResult_keeps_operationSound {s t : State} {w : EncWork} (hadm : s.params.admits w.input.length = true)
    (hw : w.Sound) (h : EncResult w s t) : t.OperationSound := by
  have ⟨hmod, hle, _⟩ := hw
  rcases h with ⟨x, a, b, c, hst, hr, he, rfl⟩ | ⟨x, a, b, c, e, hst, hr, he, rfl⟩ | ⟨hst, hend, rfl⟩ | ⟨r, -, rfl⟩
  · exact operationSound_setOp_enc.2 ⟨hadm, (encSound_step hw hst hr).1 he⟩
  · exact operationSound_setOp_enc.2 ⟨hadm, hmod, hle, rfl, (encSound_step hw hst hr).2 e he⟩
  · have hout := encodeCommand_of_sound_at_end hw hst hend
    exact operationSound_setOp_enc.2 ⟨hadm, hmod, hle, hend, hout⟩
  · exact operationSound_of_idle rfl

/-- At the end of its input a sound running decoder has the whole transaction's output (10_state.md R29). -/
theorem decodeCommand_of_sound_at_end {w : DecWork} (hw : w.Sound) (hst : w.st = .run)
    (hj : w.j = w.input.length) : decodeCommand w.input = .ok w.out := by
  obtain ⟨-, hrun⟩ := hw
  rw [hst] at hrun
  rwa [hj, List.take_length] at hrun

/-- Each result of a decoder's step is sound: a record more, its error, the whole output, or IDLE. -/
theorem decResult_keeps_operationSound {s t : State} {w : DecWork} (hadm : s.params.admits w.input.length = true)
    (hw : w.Sound) (h : DecResult w s t) : t.OperationSound := by
  have ⟨hle, _⟩ := hw
  rcases h with ⟨x, hst, hx, he, rfl⟩ | ⟨x, e, hst, hx, he, rfl⟩ | ⟨hst, hend, rfl⟩ | ⟨r, -, rfl⟩
  · exact operationSound_setOp_dec.2 ⟨hadm, (decSound_step hw hst hx).1 he⟩
  · exact operationSound_setOp_dec.2 ⟨hadm, hle, rfl, (decSound_step hw hst hx).2 e he⟩
  · have hout := decodeCommand_of_sound_at_end hw hst hend
    exact operationSound_setOp_dec.2 ⟨hadm, hle, hend, hout⟩
  · exact operationSound_of_idle rfl

theorem step_keeps_operationSound {s t : State} (h : step s = .next t) (hsound : s.OperationSound) :
    t.OperationSound := by
  rcases step_next_cases h with ⟨hs, hres⟩ | ⟨w, hs, hres⟩ | ⟨w, hs, hres⟩
  · exact idleResult_keeps_operationSound hs hres
  · obtain ⟨hadm, hw⟩ := (operationSound_enc hs).1 hsound
    exact encResult_keeps_operationSound hadm hw hres
  · obtain ⟨hadm, hw⟩ := (operationSound_dec hs).1 hsound
    exact decResult_keeps_operationSound hadm hw hres

/-! ### The request port -/

/-- A step holds no request that was not held before (20_memory.md R44). -/
theorem step_offered_subset {s t : State} (h : step s = .next t) : t.offered ⊆ s.offered := by
  obtain ⟨-, -, hidle, hbusy⟩ := stepFrame s t h
  by_cases hs : s.op = .idle
  · rw [hidle hs]; exact List.tail_subset _
  · rw [hbusy hs]; exact List.Subset.refl _

theorem step_keeps_portAdmitted {s t : State} (h : step s = .next t) (hport : s.PortAdmitted) : t.PortAdmitted := by
  obtain ⟨hparams, -⟩ := stepFrame s t h
  intro r hr
  rw [hparams]
  exact hport r (step_offered_subset h hr)

/-! ### The invariant -/

/-- Settles O35: the operation's half by the results of a step, the port's half by the frame of a step. -/
theorem stepKeepsInvariant : Obligations.StepKeepsInvariant :=
  fun _ _ h => ⟨step_keeps_operationSound h, step_keeps_portAdmitted h,
    fun ⟨hsound, hport⟩ => ⟨step_keeps_operationSound h hsound, step_keeps_portAdmitted h hport⟩⟩

/-- Settles O34: nothing is in progress and nothing is held. -/
theorem invariantAfterReset : Obligations.InvariantAfterReset :=
  fun _ => ⟨trivial, fun _ hr => nomatch hr⟩

/-- Whatever happens to a block keeps the invariant: a step, an offer that the port takes, a reset. -/
theorem applyEvent_keeps_inv {e : Event} {s t : State} (h : applyEvent e s = .next t) (hinv : s.Inv) : t.Inv := by
  obtain ⟨hsound, hport⟩ := hinv
  cases e with
  | stepOnce => exact ⟨step_keeps_operationSound h hsound, step_keeps_portAdmitted h hport⟩
  | offer r =>
    obtain ⟨hw, ha, rfl⟩ := offer_next h
    exact ⟨hsound, enqueue_admitted hport hw ha⟩
  | resetLine => cases h; exact ⟨trivial, hport⟩

/-- Settles O36: by induction over the events that lead to the state. -/
theorem invariantOfReachableStates : Obligations.InvariantOfReachableStates := by
  intro s hreach
  induction hreach with
  | reset ps => exact invariantAfterReset ps
  | event e _ h ih => exact applyEvent_keeps_inv h ih

/-! ### The cursors -/

theorem encSound_record_left {w : EncWork} (hw : w.Sound) (hst : w.st = .run) (hi : w.i < w.input.length) :
    w.i + 4 ≤ w.input.length := by
  obtain ⟨hmod, -, hrun⟩ := hw
  rw [hst] at hrun
  obtain ⟨hlen, -⟩ := hrun
  omega

/-- The output of a sound decoder has a unit for every unit before its cursor (41_decoder.md R93). -/
theorem decSound_length_out {w : DecWork} (hw : w.Sound) (hst : ∀ code info, w.st ≠ .fault code info) :
    w.out.length = w.j := by
  obtain ⟨hle, hstatus⟩ := hw
  cases hcase : w.st with
  | run =>
    rw [hcase] at hstatus
    rw [decodeCommand_length hstatus, List.length_take, Nat.min_eq_left hle]
  | done =>
    rw [hcase] at hstatus
    obtain ⟨hj, hout⟩ := hstatus
    rw [decodeCommand_length hout, hj]
  | fault code info => exact absurd hcase (hst code info)

/-- Settles O37: both cursors' ranges are part of the invariant or follow from the output it gives. -/
theorem cursorAlignedAndInRange : Obligations.CursorAlignedAndInRange := by
  intro s hreach
  obtain ⟨hsound, -⟩ := invariantOfReachableStates s hreach
  refine ⟨fun w hs => ?_, fun w hs => ?_⟩
  · obtain ⟨-, hw⟩ := (operationSound_enc hs).1 hsound
    have ⟨hmod, hle, _⟩ := hw
    exact ⟨hmod, hle, encSound_record_left hw⟩
  · obtain ⟨-, hw⟩ := (operationSound_dec hs).1 hsound
    have ⟨hle, _⟩ := hw
    exact ⟨hle, decSound_length_out hw⟩

/-! ### There is always a next step -/

/-- A status that is terminal has its response ready (10_state.md R23). -/
theorem exists_response_of_ne_run {st : Status} (hst : st ≠ .run) (out : List Word) :
    ∃ r, st.response out = some r := by
  cases st with
  | run => exact absurd rfl hst
  | done => exact ⟨_, rfl⟩
  | fault code info => exact ⟨_, rfl⟩

theorem step_enc_sound {s : State} {w : EncWork} (hs : s.op = .enc w) (hw : w.Sound) : ∃ t, step s = .next t := by
  rcases eq_or_ne w.st .run with hst | hst
  · rw [step_enc hs]
    have ⟨_, hle, _⟩ := hw
    rcases Nat.lt_or_eq_of_le hle with hi | hi
    · obtain ⟨t, a, b, c, hr⟩ := readRecord_isSome_of_le (encSound_record_left hw hst hi)
      rw [exec_encode_record hs hst hi]
      cases he : recordError (w.i / 4) t a b c with
      | none => exact ⟨_, encRec_ok hr he⟩
      | some e => exact ⟨_, encRec_error hr hs he⟩
    · exact ⟨_, exec_encode_end hs hst hi⟩
  · obtain ⟨r, hr⟩ := exists_response_of_ne_run hst w.out
    exact ⟨_, step_enc_response hs hr⟩

theorem step_dec_sound {s : State} {w : DecWork} (hs : s.op = .dec w) (hw : w.Sound) : ∃ t, step s = .next t := by
  rcases eq_or_ne w.st .run with hst | hst
  · have ⟨hle, _⟩ := hw
    rcases Nat.lt_or_eq_of_le hle with hj | hj
    · rw [step_dec_header hs hst (List.getElem?_eq_getElem hj), exec_decodeHeader_due hs hst hj]
      rcases headerStep_cases (w.input[w.j]) (hdrType w.input[w.j]) (hdrCnt w.input[w.j]).isLt hs with
        ⟨-, hstep⟩ | ⟨e, -, hstep⟩
      · exact ⟨_, hstep⟩
      · exact ⟨_, hstep⟩
    · exact ⟨_, by rw [step_dec_other hs (.inr hj.ge), exec_decode_end hs hst hj]; rfl⟩
  · obtain ⟨r, hr⟩ := exists_response_of_ne_run hst w.out
    exact ⟨_, step_dec_response hs hr⟩

theorem step_busy_sound {s : State} (hs : s.op ≠ .idle) (hsound : s.OperationSound) : ∃ t, step s = .next t := by
  cases hop : s.op with
  | idle => exact absurd hop hs
  | enc w => exact step_enc_sound hop ((operationSound_enc hop).1 hsound).2
  | dec w => exact step_dec_sound hop ((operationSound_dec hop).1 hsound).2

/-- An acceptance completes or is refused (60_exceptions.md R116). -/
theorem acceptWith_ne_fault (s start : State) (len : Nat) (f : Fault) : s.acceptWith len start ≠ .fault f := by
  cases ha : s.params.admits len with
  | true => rw [acceptWith_admitted ha]; nofun
  | false => rw [acceptWith_refused ha]; nofun

theorem step_idle_ne_fault {s : State} (hs : s.op = .idle) (f : Fault) : step s ≠ .fault f := by
  cases hq : s.offered with
  | nil => rw [step_idle_wait hs hq]; nofun
  | cons r rest =>
    cases hd : decode (.request r) with
    | error e => rw [step_idle_reject hs hq hd]; nofun
    | ok i =>
      rw [step_idle_request hs hq hd]
      rcases decodeRequest_command hd with ⟨p, rfl⟩ | ⟨u, rfl⟩
      · rw [exec_encode_idle p (s := { s with offered := rest }) hs]
        exact acceptWith_ne_fault _ _ _ f
      · rw [exec_decode_idle u (s := { s with offered := rest }) hs]
        exact acceptWith_ne_fault _ _ _ f

/-- The acceptance of ENCODE (40_encoder.md R66) as a step. -/
theorem step_accept_encode {s : State} {p : List Nat} {rest : List Request} (hs : s.op = .idle)
    (hq : s.offered = ⟨0, p⟩ :: rest) (ha : s.params.admits p.length = true) :
    step s = .next ((({ s with offered := rest } : State).setOp (.enc (startedEncode p s))).endStep) := by
  rw [step_idle_request hs hq (decode_programRequest p), exec_encode_idle p (s := { s with offered := rest }) hs,
    encAccept_admitted (s := { s with offered := rest }) ha]
  rfl

/-- The acceptance of DECODE (41_decoder.md R82) as a step. -/
theorem step_accept_decode {s : State} {u : List Word} {rest : List Request} (hs : s.op = .idle)
    (hq : s.offered = ⟨1, u.map BitVec.toNat⟩ :: rest) (ha : s.params.admits u.length = true) :
    step s = .next ((({ s with offered := rest } : State).setOp (.dec ⟨u, 0, [], .run⟩)).endStep) := by
  rw [step_idle_request hs hq (decode_streamRequest u),
    decodeAcceptance { s with offered := rest } u hs ha]
  rfl

theorem step_idle_acceptable {s : State} (hs : s.op = .idle) (hhead : s.HeadAcceptable) : ∃ t, step s = .next t := by
  cases hq : s.offered with
  | nil => exact ⟨_, step_idle_wait hs hq⟩
  | cons r rest =>
    obtain ⟨hw, ha⟩ := hhead r (by rw [hq]; rfl)
    rcases request_of_wf hw with ⟨p, rfl⟩ | ⟨u, rfl⟩
    · exact ⟨_, step_accept_encode hs hq ha⟩
    · exact ⟨_, step_accept_decode hs hq (by rwa [List.length_map] at ha)⟩

theorem headAcceptable_of_portAdmitted {s : State} (hport : s.PortAdmitted) : s.HeadAcceptable :=
  fun r hr => hport r (List.mem_of_head? hr)

/-- Settles O38: a busy block with a sound operation always steps, and an IDLE one waits, accepts or refuses. -/
theorem soundInstanceKeepsStepping : Obligations.SoundInstanceKeepsStepping := by
  intro s
  have steps (hsound : s.OperationSound) (h : s.op ≠ .idle ∨ s.HeadAcceptable) : ∃ t, step s = .next t := by
    by_cases hs : s.op = .idle
    · exact step_idle_acceptable hs (h.resolve_left (not_not.2 hs))
    · exact step_busy_sound hs hsound
  refine ⟨fun hsound => ⟨fun f => ?_, steps hsound⟩, fun ⟨hsound, hport⟩ =>
    steps hsound (.inr (headAcceptable_of_portAdmitted hport))⟩
  by_cases hs : s.op = .idle
  · exact step_idle_ne_fault hs f
  · obtain ⟨t, ht⟩ := step_busy_sound hs hsound
    rw [ht]
    nofun

end Sys2Proof.Machine
end

section
/-! PROOFS. Runs (10_state.md R29, R30; 70_reset_and_hazards.md R130, R141, R142): the steps of an operation end with
the response of its transaction, and the held requests are then served one after another. -/

namespace Sys2Proof.Machine

/-! ### Runs that end an operation -/

/-- `t` is `s` with its operation ended and the one response `r` delivered, the port and the parameters
as in `s`. -/
structure Completes (s t : State) (r : Response) : Prop where
  idle : t.op = .idle
  offered : t.offered = s.offered
  params : t.params = s.params
  responses : t.responses = s.responses ++ [r]

/-- `k` steps end the operation of `s` with the response `r`. -/
def Serves (k : Nat) (s : State) (r : Response) : Prop := ∃ t, runSteps k s = .next t ∧ Completes s t r

/-- A response step by itself. -/
theorem serves_one {s : State} {r : Response} (h : step s = .next (s.deliver r).endStep) : Serves 1 s r :=
  ⟨_, runSteps_succ 0 h, rfl, rfl, rfl, rfl⟩

/-- One step that writes the operation only, and then the rest of the run. -/
theorem serves_succ {k : Nat} {s : State} {o : Operation} {r : Response} (h : step s = .next (s.setOp o).endStep)
    (hrest : Serves k (s.setOp o).endStep r) : Serves (k + 1) s r := by
  obtain ⟨t, hrun, hidle, hoffered, hparams, hresponses⟩ := hrest
  exact ⟨t, by rw [runSteps_succ k h, hrun], hidle, hoffered, hparams, hresponses⟩

/-! ### ENCODE -/

/-- The response that a terminal status has ready is the transaction's. -/
theorem encSound_response {w : EncWork} (hw : w.Sound) (hst : w.st ≠ .run) :
    w.st.response w.out = some (resultResponse (encodeCommand w.input)) := by
  obtain ⟨-, -, hstatus⟩ := hw
  cases hcase : w.st with
  | run => exact absurd hcase hst
  | done =>
    rw [hcase] at hstatus
    rw [hstatus.2]
    rfl
  | fault code info =>
    rw [hcase] at hstatus
    obtain ⟨rfl, hout⟩ := hstatus
    rw [hout]
    rfl

theorem enc_terminal_serves {s : State} {w : EncWork} (hs : s.op = .enc w) (hw : w.Sound) (hst : w.st ≠ .run) :
    Serves 1 s (resultResponse (encodeCommand w.input)) :=
  serves_one (step_enc_response hs (encSound_response hw hst))

theorem enc_written_serves {s : State} {w : EncWork} (hw : w.Sound) (hst : w.st ≠ .run) :
    Serves 1 (s.setOp (.enc w)).endStep (resultResponse (encodeCommand w.input)) :=
  enc_terminal_serves rfl hw hst

/-- A running encoder with `m` records left ends within a step for each, the end step and the response step; it takes
them all if no record fails (70_reset_and_hazards.md R141). -/
theorem enc_run_serves (m : Nat) : ∀ {s : State} {w : EncWork}, s.op = .enc w → w.Sound → w.st = .run →
    w.input.length = w.i + 4 * m →
    ∃ k, Serves k s (resultResponse (encodeCommand w.input)) ∧ k ≤ m + 2 ∧
      ((∃ units, encodeCommand w.input = .ok units) → k = m + 2) := by
  induction m with
  | zero =>
    intro s w hs hw hst hlen
    have hend : step s = .next (s.setOp (.enc { w with st := .done })).endStep := by
      rw [step_enc hs, exec_encode_end hs hst hlen.symm]; rfl
    have hdone : EncWork.Sound { w with st := .done } := by
      have ⟨hmod, hle, _⟩ := hw
      have hout := encodeCommand_of_sound_at_end hw hst hlen.symm
      exact ⟨hmod, hle, hlen.symm, hout⟩
    exact ⟨2, serves_succ hend (enc_written_serves hdone nofun), le_rfl, fun _ => rfl⟩
  | succ m ih =>
    intro s w hs hw hst hlen
    obtain ⟨t, a, b, c, hr⟩ := readRecord_isSome_of_le (input := w.input) (i := w.i) (by omega)
    obtain ⟨hnext, hfail⟩ := encSound_step hw hst hr
    have hrec : step s = encRec w s := by rw [step_enc hs, exec_encode_record hs hst (by omega)]
    cases he : recordError (w.i / 4) t a b c with
    | none =>
      obtain ⟨k, hserves, hle, hall⟩ := ih
        (s := (s.setOp (.enc { w with i := w.i + 4, out := w.out ++ recordUnits t a b c })).endStep)
        rfl (hnext he) hst (by show w.input.length = w.i + 4 + 4 * m; omega)
      exact ⟨k + 1, serves_succ (hrec.trans (encRec_ok hr he)) hserves, by omega, fun hok => by rw [hall hok]⟩
    | some e =>
      have hfault : EncWork.Sound { w with out := Config.freeOut s.fresh, st := .fault e.code e } := by
        obtain ⟨hmod, hle, -⟩ := hw
        exact ⟨hmod, hle, rfl, hfail e he⟩
      refine ⟨2, serves_succ (hrec.trans (encRec_error hr hs he)) (enc_written_serves hfault nofun),
        by omega, fun ⟨units, hok⟩ => ?_⟩
      rw [hfail e he] at hok
      cases hok

/-- The operation of a sound encoder ends (70_reset_and_hazards.md R142). -/
theorem enc_sound_serves {s : State} {w : EncWork} (hs : s.op = .enc w) (hw : w.Sound) :
    ∃ k, Serves k s (resultResponse (encodeCommand w.input)) := by
  rcases eq_or_ne w.st .run with hst | hst
  · have ⟨hmod, hle, hrun⟩ := hw
    rw [hst] at hrun
    obtain ⟨k, hserves, -⟩ := enc_run_serves ((w.input.length - w.i) / 4) hs hw hst (by omega)
    exact ⟨k, hserves⟩
  · exact ⟨1, enc_terminal_serves hs hw hst⟩

/-- The operation that an accepted ENCODE starts ends within the counts of R141. -/
theorem startedEncode_serves {s : State} {p : List Nat} (u : State) (hu : u.op = .enc (startedEncode p s)) :
    ∃ k, Serves k u (resultResponse (encodeCommand p)) ∧ k ≤ p.length / 4 + 2 ∧
      ((∃ units, encodeCommand p = .ok units) → k = p.length / 4 + 2) := by
  obtain ⟨hsound, hinput⟩ := startedEncode_sound p s
  by_cases hp : p.length % 4 = 0
  · have hstarted : startedEncode p s = ⟨p, 0, [], .run⟩ := if_neg (not_not.2 hp)
    rw [hstarted] at hu hsound
    exact enc_run_serves (p.length / 4) hu hsound rfl (by show p.length = 0 + 4 * (p.length / 4); omega)
  · have hserves := enc_terminal_serves hu hsound (by rw [startedEncode, if_pos hp]; nofun)
    rw [hinput] at hserves
    refine ⟨1, hserves, by omega, fun ⟨units, hok⟩ => ?_⟩
    rw [encodeCommand_ragged hp] at hok
    cases hok

/-- Settles O39: the acceptance, then the run of the operation it starts. -/
theorem encodeStepsGiveItsTransaction : Obligations.EncodeStepsGiveItsTransaction := by
  intro s p rest hs hq ha
  obtain ⟨k, ⟨t, hrun, hidle, hoffered, hparams, hresponses⟩, hle, hall⟩ := startedEncode_serves (s := s) (p := p)
    (({ s with offered := rest } : State).setOp (.enc (startedEncode p s))).endStep rfl
  refine ⟨k + 1, t, ?_, hidle, hoffered, hparams, hresponses, by omega, fun hok => by rw [hall hok]⟩
  rw [runSteps_succ k (step_accept_encode hs hq ha), hrun]

/-! ### DECODE -/

theorem decSound_response {w : DecWork} (hw : w.Sound) (hst : w.st ≠ .run) :
    w.st.response w.out = some (resultResponse (decodeCommand w.input)) := by
  obtain ⟨-, hstatus⟩ := hw
  cases hcase : w.st with
  | run => exact absurd hcase hst
  | done =>
    rw [hcase] at hstatus
    rw [hstatus.2]
    rfl
  | fault code info =>
    rw [hcase] at hstatus
    obtain ⟨rfl, hout⟩ := hstatus
    rw [hout]
    rfl

theorem dec_terminal_serves {s : State} {w : DecWork} (hs : s.op = .dec w) (hw : w.Sound) (hst : w.st ≠ .run) :
    Serves 1 s (resultResponse (decodeCommand w.input)) :=
  serves_one (step_dec_response hs (decSound_response hw hst))

theorem dec_written_serves {s : State} {w : DecWork} (hw : w.Sound) (hst : w.st ≠ .run) :
    Serves 1 (s.setOp (.dec w)).endStep (resultResponse (decodeCommand w.input)) :=
  dec_terminal_serves rfl hw hst

theorem dec_end_serves {s : State} {w : DecWork} (hs : s.op = .dec w) (hw : w.Sound) (hst : w.st = .run)
    (hj : w.j = w.input.length) : Serves 2 s (resultResponse (decodeCommand w.input)) := by
  have hend : step s = .next (s.setOp (.dec { w with st := .done })).endStep := by
    rw [step_dec_other hs (.inr hj.ge), exec_decode_end hs hst hj]; rfl
  have hout := decodeCommand_of_sound_at_end hw hst hj
  have hdone : DecWork.Sound { w with st := .done } := ⟨hj.le, hj, hout⟩
  exact serves_succ hend (dec_written_serves hdone nofun)

/-- A running decoder with at most `m` units left ends within a step for each, the end step and the response step
(70_reset_and_hazards.md R141). -/
theorem dec_run_serves (m : Nat) : ∀ {s : State} {w : DecWork}, s.op = .dec w → w.Sound → w.st = .run →
    w.input.length ≤ w.j + m → ∃ k, Serves k s (resultResponse (decodeCommand w.input)) ∧ k ≤ m + 2 := by
  induction m with
  | zero =>
    intro s w hs hw hst hlen
    have ⟨hle, _⟩ := hw
    exact ⟨2, dec_end_serves hs hw hst (Nat.le_antisymm hle hlen), le_rfl⟩
  | succ m ih =>
    intro s w hs hw hst hlen
    have ⟨hle, _⟩ := hw
    rcases Nat.lt_or_eq_of_le hle with hj | hj
    · have hx := List.getElem?_eq_getElem hj
      generalize w.input[w.j] = x at hx
      obtain ⟨hnext, hfail⟩ := decSound_step hw hst hx
      have hrec : step s = headerStep x (hdrType x) (hdrCnt x).toNat w s := by
        rw [step_dec_header hs hst hx, exec_decodeHeader_due hs hst hj]
      rcases headerStep_cases x (hdrType x) (hdrCnt x).isLt hs with ⟨he, hstep⟩ | ⟨e, he, hstep⟩
      · obtain ⟨k, hserves, hk⟩ := ih (s := (s.setOp (.dec { w with
            j := w.j + 1 + (hdrCnt x).toNat
            out := w.out ++ zext16 (hdrType x) :: operandWords w.input (w.j + 1) (hdrCnt x).toNat })).endStep)
          rfl (hnext he) hst (by show w.input.length ≤ w.j + 1 + (hdrCnt x).toNat + m; omega)
        exact ⟨k + 1, serves_succ (hrec.trans hstep) hserves, by omega⟩
      · have hfault : DecWork.Sound { w with out := Config.freeOut s.fresh, st := .fault e.code e } :=
          ⟨hle, rfl, hfail e he⟩
        exact ⟨2, serves_succ (hrec.trans hstep) (dec_written_serves hfault nofun), by omega⟩
    · exact ⟨2, dec_end_serves hs hw hst hj, by omega⟩

/-- The operation of a sound decoder ends (70_reset_and_hazards.md R142). -/
theorem dec_sound_serves {s : State} {w : DecWork} (hs : s.op = .dec w) (hw : w.Sound) :
    ∃ k, Serves k s (resultResponse (decodeCommand w.input)) := by
  rcases eq_or_ne w.st .run with hst | hst
  · obtain ⟨k, hserves, -⟩ := dec_run_serves w.input.length hs hw hst (by omega)
    exact ⟨k, hserves⟩
  · exact ⟨1, dec_terminal_serves hs hw hst⟩

/-- Settles O40: the acceptance, then the run of the operation it starts. -/
theorem decodeStepsGiveItsTransaction : Obligations.DecodeStepsGiveItsTransaction := by
  intro s u rest hs hq ha
  obtain ⟨k, ⟨t, hrun, hidle, hoffered, hparams, hresponses⟩, hle⟩ := dec_run_serves u.length
    (s := (({ s with offered := rest } : State).setOp (.dec ⟨u, 0, [], .run⟩)).endStep) rfl
    (startedDecode_sound u) rfl (Nat.le_add_left _ _)
  refine ⟨k + 1, t, ?_, hidle, hoffered, hparams, hresponses, by omega⟩
  rw [runSteps_succ k (step_accept_decode hs hq ha), hrun]

/-! ### The held requests -/

theorem requestResponse_program {ps : Params} {p : List Nat} (ha : ps.admits p.length = true) :
    requestResponse ps ⟨0, p⟩ = some (resultResponse (encodeCommand p)) := by
  rw [requestResponse, if_pos ha, decode_programRequest]

theorem requestResponse_stream {ps : Params} {u : List Word} (ha : ps.admits u.length = true) :
    requestResponse ps ⟨1, u.map BitVec.toNat⟩ = some (resultResponse (decodeCommand u)) := by
  rw [requestResponse, if_pos (by rwa [List.length_map]), decode_streamRequest]

/-- The oldest request of an IDLE block is served by its own transaction's response. -/
theorem head_request_served {s : State} {r : Request} {rest : List Request} (hs : s.op = .idle)
    (hq : s.offered = r :: rest) (hw : r.wf = true) (ha : s.params.admits r.payload.length = true) :
    ∃ k t q, requestResponse s.params r = some q ∧ runSteps k s = .next t ∧
      Completes { s with offered := rest } t q := by
  rcases request_of_wf hw with ⟨p, rfl⟩ | ⟨u, rfl⟩
  · obtain ⟨k, t, hrun, hidle, hoffered, hparams, hresponses, -⟩ := encodeStepsGiveItsTransaction s p rest hs hq ha
    exact ⟨k, t, _, requestResponse_program ha, hrun, hidle, hoffered, hparams, hresponses⟩
  · rw [List.length_map] at ha
    obtain ⟨k, t, hrun, hidle, hoffered, hparams, hresponses, -⟩ := decodeStepsGiveItsTransaction s u rest hs hq ha
    exact ⟨k, t, _, requestResponse_stream ha, hrun, hidle, hoffered, hparams, hresponses⟩

/-- The requests left are as acceptable as they were. -/
theorem Completes.portAdmitted {s u : State} {q : Response} {rest : List Request}
    (h : Completes { s with offered := rest } u q) (hsub : rest ⊆ s.offered) (hport : s.PortAdmitted) :
    u.PortAdmitted := by
  intro x hx
  rw [h.params]
  rw [h.offered] at hx
  exact hport x (hsub hx)

/-- `t` is IDLE with an empty port, and `answers` were delivered since `s`, in this order. -/
structure Drained (s t : State) (answers : List (Option Response)) : Prop where
  idle : t.op = .idle
  offered : t.offered = []
  params : t.params = s.params
  responses : t.responses.map some = s.responses.map some ++ answers

/-- What is served first, then what is served after it. -/
theorem Completes.drained {s u t : State} {q : Response} {rest : List Request} {answers : List (Option Response)}
    (h : Completes { s with offered := rest } u q) (hrest : Drained u t answers) :
    Drained s t (some q :: answers) where
  idle := hrest.idle
  offered := hrest.offered
  params := hrest.params.trans h.params
  responses := by rw [hrest.responses, h.responses]; simp

/-- The requests held by an IDLE block are served in the order offered (20_memory.md R44). -/
theorem queue_drains (rs : List Request) : ∀ {s : State}, s.op = .idle → s.offered = rs → s.PortAdmitted →
    ∃ k t, runSteps k s = .next t ∧ Drained s t (rs.map (requestResponse s.params)) := by
  induction rs with
  | nil => exact fun {s} hs hq _ => ⟨0, s, rfl, hs, hq, rfl, (List.append_nil _).symm⟩
  | cons r rest ih =>
    intro s hs hq hport
    obtain ⟨hw, ha⟩ := hport r (by rw [hq]; exact List.mem_cons_self)
    obtain ⟨k, u, q, hq', hrun, hu⟩ := head_request_served hs hq hw ha
    have hportu := hu.portAdmitted (by rw [hq]; exact List.subset_cons_self r rest) hport
    obtain ⟨j, t, hrunu, ht⟩ := ih hu.idle hu.offered hportu
    refine ⟨k + j, t, by rw [runSteps_add j k s u hrun, hrunu], ?_⟩
    rw [List.map_cons, hq', ← hu.params]
    exact hu.drained ht

/-- A block that ends its operation then serves the requests it holds. -/
theorem serves_drains {k : Nat} {s : State} {r : Response} (h : Serves k s r) (hport : s.PortAdmitted) :
    ∃ n t, runSteps n s = .next t ∧ Drained s t (some r :: s.offered.map (requestResponse s.params)) := by
  obtain ⟨u, hrun, hu⟩ := h
  have hportu := Completes.portAdmitted (rest := s.offered) hu (List.Subset.refl _) hport
  obtain ⟨j, t, hrunu, ht⟩ := queue_drains s.offered hu.idle hu.offered hportu
  refine ⟨k + j, t, by rw [runSteps_add j k s u hrun, hrunu], ?_⟩
  rw [← hu.params]
  exact Completes.drained (rest := s.offered) hu ht

/-- Settles O41: the operation in progress ends because it is sound, and the queue is served after it. -/
theorem heldRequestsServedInOrder : Obligations.HeldRequestsServedInOrder := by
  intro s ⟨hsound, hport⟩
  cases hs : s.op with
  | idle =>
    obtain ⟨k, t, hrun, ht⟩ := queue_drains s.offered hs rfl hport
    exact ⟨k, t, hrun, ht.idle, ht.offered, ht.params, by rw [ht.responses, List.append_nil]⟩
  | enc w =>
    obtain ⟨k, hserves⟩ := enc_sound_serves hs ((operationSound_enc hs).1 hsound).2
    obtain ⟨n, t, hrun, ht⟩ := serves_drains hserves hport
    exact ⟨n, t, hrun, ht.idle, ht.offered, ht.params, by rw [ht.responses, List.append_assoc]; rfl⟩
  | dec w =>
    obtain ⟨k, hserves⟩ := dec_sound_serves hs ((operationSound_dec hs).1 hsound).2
    obtain ⟨n, t, hrun, ht⟩ := serves_drains hserves hport
    exact ⟨n, t, hrun, ht.idle, ht.offered, ht.params, by rw [ht.responses, List.append_assoc]; rfl⟩

/-- Settles O55: the reset leaves an IDLE block, whose port then holds this one request. -/
theorem responseAfterResetIsItsOwn : Obligations.ResponseAfterResetIsItsOwn := by
  intro s r hempty hw ha
  have hq : (s.resetEvent.enqueue r).offered = [r] := by
    rw [enqueue_offered, resetEvent_offered, hempty]; rfl
  obtain ⟨k, t, q, hresp, hrun, ht⟩ := head_request_served (s := s.resetEvent.enqueue r) rfl hq hw ha
  exact ⟨k, _, t, q, hresp, offer_taken hw ha, hrun, ht.idle, ht.responses⟩

end Sys2Proof.Machine
end

section
/-! PROOFS. What has no influence (10_state.md R16, R20; 20_memory.md R43): the latches that stand at the start of a
step, the responses delivered before it, and the events of other blocks. -/

namespace Sys2Proof.Machine

/-! ### Latches and earlier responses -/

/-- `s` with the responses `old` delivered before its own. -/
def State.afterResponses (old : List Response) (s : State) : State := { s with responses := old ++ s.responses }

/-- `s` with the responses `old` delivered before its own, and other latches. -/
def State.inContext (old : List Response) (l : Latches) (s : State) : State :=
  { s with responses := old ++ s.responses, latches := l }

/-- The outcome with its next state, if any, changed. -/
def mapNext (f : State → State) : StepOutcome → StepOutcome
  | .next s => .next (f s)
  | .fault e => .fault e
  | .refused r => .refused r

section InContext

variable (old : List Response) (l : Latches) (s : State)

@[simp] theorem inContext_op : (s.inContext old l).op = s.op := rfl

theorem fetch_inContext : fetch (s.inContext old l) = fetch s := rfl

theorem afterFetch_inContext : afterFetch (s.inContext old l) = (afterFetch s).inContext old l := by
  cases hs : s.op with
  | idle => simp only [afterFetch, inContext_op, hs]; rfl
  | enc w => simp only [afterFetch, inContext_op, hs]
  | dec w => simp only [afterFetch, inContext_op, hs]

/-- A delivery writes behind the responses that are there. -/
theorem deliver_inContext (r : Response) :
    ((s.inContext old l).deliver r).endStep = (s.deliver r).endStep.afterResponses old := by
  simp only [State.deliver, State.inContext, State.endStep, State.afterResponses, List.append_assoc]

theorem respond_inContext :
    (s.inContext old l).respond = mapNext (State.afterResponses old) s.respond := by
  cases hr : s.op.response with
  | none => simp only [State.respond, inContext_op, hr, mapNext]
  | some r =>
    rw [respond_ready hr, respond_ready (s := s.inContext old l) hr, deliver_inContext]
    rfl

theorem encAccept_inContext (p : List Nat) :
    encAccept p (s.inContext old l) = mapNext (State.afterResponses old) (encAccept p s) := by
  cases ha : s.params.admits p.length with
  | true => rw [encAccept_admitted ha, encAccept_admitted (s := s.inContext old l) ha]; rfl
  | false => rw [encAccept, acceptWith_refused (s := s.inContext old l) ha, encAccept, acceptWith_refused ha]; rfl

theorem decAccept_inContext (u : List Word) :
    decAccept u (s.inContext old l) = mapNext (State.afterResponses old) (decAccept u s) := by
  cases ha : s.params.admits u.length with
  | true => rw [decAccept, acceptWith_admitted (s := s.inContext old l) ha, decAccept, acceptWith_admitted ha]; rfl
  | false => rw [decAccept, acceptWith_refused (s := s.inContext old l) ha, decAccept, acceptWith_refused ha]; rfl

variable {s}

/-- A record step writes every latch that it reads (40_encoder.md R67). -/
theorem encRec_inContext {w : EncWork} (hs : s.op = .enc w) :
    encRec w (s.inContext old l) = mapNext (State.afterResponses old) (encRec w s) := by
  cases hr : readRecord w.input w.i with
  | none => simp only [encRec, hr, mapNext]
  | some r =>
    obtain ⟨t, a, b, c⟩ := r
    cases he : recordError (w.i / 4) t a b c with
    | none => rw [encRec_ok hr he, encRec_ok hr he]; rfl
    | some e => rw [encRec_error hr hs he, encRec_error (s := s.inContext old l) hr hs he]; rfl

/-- A header step writes every latch that it reads (41_decoder.md R83). -/
theorem headerStep_inContext {w : DecWork} (hs : s.op = .dec w) (h : Word) (t : Opcode) {n : Nat} (hn : n < 16) :
    headerStep h t n w (s.inContext old l) = mapNext (State.afterResponses old) (headerStep h t n w s) := by
  cases he : headerError w.j n w.input.length with
  | none => rw [headerStep_ok hn he, headerStep_ok hn he]; rfl
  | some e => rw [headerStep_error hn hs he, headerStep_error (s := s.inContext old l) hn hs he]; rfl

variable (s)

theorem exec_encode_inContext (p : List Nat) :
    exec (.encode p) (s.inContext old l) = mapNext (State.afterResponses old) (exec (.encode p) s) := by
  cases hs : s.op with
  | idle =>
    rw [exec_encode_idle p hs, exec_encode_idle p (s := s.inContext old l) hs]
    exact encAccept_inContext old l s p
  | dec w => simp only [exec, execEncode, inContext_op, hs, mapNext]
  | enc w =>
    simp only [exec, execEncode, inContext_op, hs]
    by_cases hp : w.input = p
    · rw [if_pos hp, if_pos hp]
      cases w.st with
      | run =>
        simp only
        split_ifs
        · exact encRec_inContext old l hs
        · rfl
        · rfl
      | done => exact respond_inContext old l s
      | fault code info => exact respond_inContext old l s
    · rw [if_neg hp, if_neg hp]; rfl

theorem exec_decode_inContext (u : List Word) :
    exec (.decode u) (s.inContext old l) = mapNext (State.afterResponses old) (exec (.decode u) s) := by
  cases hs : s.op with
  | idle =>
    rw [exec_decode_idle u hs, exec_decode_idle u (s := s.inContext old l) hs]
    exact decAccept_inContext old l s u
  | enc w => simp only [exec, execDecode, inContext_op, hs, mapNext]
  | dec w =>
    simp only [exec, execDecode, inContext_op, hs]
    by_cases hp : w.input = u
    · rw [if_pos hp, if_pos hp]
      cases w.st with
      | run =>
        simp only
        split_ifs with hj hend
        · simp only [decRec, memRead, List.getElem?_eq_getElem hj]
          exact headerStep_inContext old l hs _ _ (hdrCnt _).isLt
        · rfl
        · rfl
      | done => exact respond_inContext old l s
      | fault code info => exact respond_inContext old l s
    · rw [if_neg hp, if_neg hp]; rfl

theorem onHeaderStep_inContext {body body' : DecWork → StepOutcome}
    (hbody : ∀ w, s.op = .dec w → body' w = mapNext (State.afterResponses old) (body w)) :
    onHeaderStep body' (s.inContext old l) = mapNext (State.afterResponses old) (onHeaderStep body s) := by
  cases hs : s.op with
  | idle => simp only [onHeaderStep, inContext_op, hs, mapNext]
  | enc w => simp only [onHeaderStep, inContext_op, hs, mapNext]
  | dec w =>
    simp only [onHeaderStep, inContext_op, hs, hbody w hs]
    cases w.st with
    | run => simp only; split_ifs <;> rfl
    | done => rfl
    | fault code info => rfl

theorem execHeader_inContext {n : Nat} (hn : n < 16) (rsv : Rsv) (t : Opcode) :
    execHeader n rsv t (s.inContext old l) = mapNext (State.afterResponses old) (execHeader n rsv t s) :=
  onHeaderStep_inContext old l s fun _ hs => headerStep_inContext old l hs _ t hn

/-- Every instruction has the same outcome whatever the latches hold, and it leaves earlier responses where they are. -/
theorem exec_inContext (i : Instr) :
    exec i (s.inContext old l) = mapNext (State.afterResponses old) (exec i s) := by
  cases i with
  | encode p => exact exec_encode_inContext old l s p
  | decode u => exact exec_decode_inContext old l s u
  | operandWord v => exact onHeaderStep_inContext old l s fun _ _ => rfl
  | _ rsv t => exact execHeader_inContext old l s (by decide) rsv t

/-- A step that serves something has the same outcome in every context. -/
theorem step_inContext (hserved : fetch s ≠ none) :
    step (s.inContext old l) = mapNext (State.afterResponses old) (step s) := by
  rw [step, step, fetch_inContext, afterFetch_inContext]
  cases hf : fetch s with
  | none => exact absurd hf hserved
  | some f =>
    cases hd : decode f with
    | ok i => simp only [hd]; exact exec_inContext old l (afterFetch s) i
    | error e => simp only [hd, mapNext]

end InContext

/-- Settles O33: the context with no earlier response and other latches. -/
theorem outcomeIgnoresLatches : Obligations.OutcomeIgnoresLatches := by
  intro i s l
  have h := exec_inContext [] l s i
  have hid : mapNext (State.afterResponses []) (exec i s) = exec i s := by
    cases exec i s <;> rfl
  rwa [hid] at h

/-- Two states that agree in all but responses and latches are one state in two contexts. -/
theorem eq_inContext {s u : State} (hop : s.op = u.op) (hparams : s.params = u.params)
    (hoffered : s.offered = u.offered) (hfresh : s.fresh = u.fresh) :
    u = State.inContext u.responses u.latches { s with responses := [] } := by
  rw [State.inContext, List.append_nil, hop, hparams, hoffered, hfresh]

/-- Settles O42: both states are one state without responses, each in its own context. -/
theorem stepIgnoresResponsesAndLatches : Obligations.StepIgnoresResponsesAndLatches := by
  intro s u hop hparams hoffered hfresh
  have hs := eq_inContext (s := s) (u := s) rfl rfl rfl rfl
  have hu := eq_inContext hop hparams hoffered hfresh
  generalize ({ s with responses := [] } : State) = bare at hs hu
  by_cases hserved : fetch bare = none
  · have waits {x : State} (hx : x = bare.inContext x.responses x.latches) : step x = .next x := by
      rw [step, hx, fetch_inContext, hserved]
    rw [waits hs, waits hu]
    exact ⟨hop, hoffered, [], (List.append_nil _).symm, (List.append_nil _).symm⟩
  · have serves {x : State} (hx : x = bare.inContext x.responses x.latches) :
        step x = mapNext (State.afterResponses x.responses) (step bare) := by
      conv_lhs => rw [hx]
      exact step_inContext _ _ bare hserved
    rw [serves hs, serves hu]
    cases step bare with
    | next t => exact ⟨rfl, rfl, t.responses, rfl, rfl⟩
    | fault f => rfl
    | refused r => rfl

/-! ### Other blocks -/

theorem runEvents_cons (e : Event) (rest : List Event) (s : State) :
    runEvents (e :: rest) s = runEvents rest (runEvents [e] s) := by
  cases h : applyEvent e s <;> simp only [runEvents, h]

theorem apply_at_same {p : Platform} {k : Nat} {s : State} (e : Event) (h : p.instances[k]? = some s) :
    (p.apply k e).instances[k]? = some (runEvents [e] s) := by
  simp only [Platform.apply, h]
  exact List.getElem?_set_self (lt_of_get h)

theorem apply_at_other (p : Platform) {j k : Nat} (e : Event) (h : j ≠ k) :
    (p.apply j e).instances[k]? = p.instances[k]? := by
  cases hj : p.instances[j]? with
  | none => simp only [Platform.apply, hj]
  | some s => simp only [Platform.apply, hj]; exact List.getElem?_set_ne h

theorem eventsOf_cons_same (k : Nat) (e : Event) (rest : List (Nat × Event)) :
    eventsOf k ((k, e) :: rest) = e :: eventsOf k rest := by
  simp [eventsOf]

theorem eventsOf_cons_other {j k : Nat} (e : Event) (rest : List (Nat × Event)) (h : j ≠ k) :
    eventsOf k ((j, e) :: rest) = eventsOf k rest := by
  simp [eventsOf, h]

/-- Settles O56: by induction over the schedule, an event of the block itself or of another one. -/
theorem instancesDoNotInterfere : Obligations.InstancesDoNotInterfere := by
  intro schedule
  induction schedule with
  | nil => exact fun _ _ _ h => h
  | cons ke rest ih =>
    intro p k s h
    obtain ⟨j, e⟩ := ke
    rw [Platform.run]
    rcases eq_or_ne j k with rfl | hne
    · rw [eventsOf_cons_same, runEvents_cons]
      exact ih _ _ _ (apply_at_same e h)
    · rw [eventsOf_cons_other e rest hne]
      exact ih _ _ _ ((apply_at_other p e hne).trans h)

end Sys2Proof.Machine
end

section
/-! PROOFS. The adapters in both directions (42_representation.md R98 to R105): bytes read in the order they were
written in, and in the other one. -/

namespace Sys2Proof.Machine

theorem byte_append_toNat (hi lo : Byte) : (hi ++ lo).toNat = hi.toNat * 256 + lo.toNat := by
  rw [BitVec.toNat_append, ← Nat.shiftLeft_add_eq_or_of_lt lo.isLt, Nat.shiftLeft_eq]

theorem lowByte_toNat (u : Word) : (lowByte u).toNat = u.toNat % 256 := by
  rw [lowByte_eq_ofNat_mod, BitVec.toNat_ofNat]
  exact Nat.mod_mod _ _

theorem highByte_toNat (u : Word) : (highByte u).toNat = u.toNat / 256 := by
  rw [highByte_eq_ofNat_div, BitVec.toNat_ofNat]
  have := u.isLt
  exact Nat.mod_eq_of_lt (by omega)

theorem highByte_append_lowByte (u : Word) : highByte u ++ lowByte u = u := by
  apply BitVec.eq_of_toNat_eq
  rw [byte_append_toNat, lowByte_toNat, highByte_toNat, Nat.div_add_mod']

/-- The unit with its two bytes exchanged (42_representation.md R105). -/
def swapBytes (u : Word) : Word := BitVec.ofNat 16 (u.toNat % 256 * 256 + u.toNat / 256)

theorem lowByte_append_highByte (u : Word) : lowByte u ++ highByte u = swapBytes u := by
  apply BitVec.eq_of_toNat_eq
  have := u.isLt
  rw [byte_append_toNat, lowByte_toNat, highByte_toNat, swapBytes, BitVec.toNat_ofNat]
  exact (Nat.mod_eq_of_lt (by omega)).symm

theorem pairBytes_unitBytes_append (o : ByteOrder) (u : Word) (rest : List Byte) :
    pairBytes o (unitBytes o u ++ rest) = u :: pairBytes o rest := by
  cases o with
  | little => exact congrArg (· :: _) (highByte_append_lowByte u)
  | big => exact congrArg (· :: _) (highByte_append_lowByte u)

/-- If the bytes of one unit are read as `f u`, those of a stream are read unit by unit. -/
theorem fromBytes_toBytes {o o' : ByteOrder} {f : Word → Word}
    (hunit : ∀ u rest, pairBytes o' (unitBytes o u ++ rest) = f u :: pairBytes o' rest) (e : List Word) :
    fromBytes (toBytes e o) o' = .ok (e.map f) := by
  rw [fromBytes_even o' (by rw [length_toBytes]; omega)]
  induction e with
  | nil => rfl
  | cons u e ih => rw [toBytes_cons, hunit, List.map_cons, Except.ok.inj ih]

/-- Bytes read in the order they were written in give the stream back (R104). -/
theorem fromBytes_toBytes_same (e : List Word) (o : ByteOrder) : fromBytes (toBytes e o) o = .ok e := by
  rw [fromBytes_toBytes (f := id) (pairBytes_unitBytes_append o), List.map_id]

/-- A carrier that holds a stream gives the DECODE request of that stream (R102). -/
theorem carrier_request_decodes {c : Carrier} {e : List Word} (h : c.units = .ok e) :
    ∃ r, c.request = .ok r ∧ decode (.request r) = .ok (.decode e) :=
  ⟨⟨1, e.map BitVec.toNat⟩, by simp only [Carrier.request, h], decode_streamRequest e⟩

/-- Settles O59: each carrier gives its stream back, and so the stream's own request. -/
theorem adapterRoundTrips : Obligations.AdapterRoundTrips := by
  intro e o
  refine ⟨rfl, rfl, fromBytes_toBytes_same e o, fun c hc => carrier_request_decodes ?_⟩
  simp only [List.mem_cons, List.not_mem_nil, or_false] at hc
  rcases hc with rfl | rfl | rfl
  · rfl
  · rfl
  · exact fromBytes_toBytes_same e o

/-- Settles O60: the unit read is the low byte before the high byte; the example is computed. -/
theorem byteOrderMismatchSwapsBytes : Obligations.ByteOrderMismatchSwapsBytes := by
  refine ⟨fun e => ⟨fromBytes_toBytes (f := swapBytes) (fun u rest => ?_) e,
    fromBytes_toBytes (f := swapBytes) (fun u rest => ?_) e⟩, by decide, by decide⟩
  · exact congrArg (· :: _) (lowByte_append_highByte u)
  · exact congrArg (· :: _) (lowByte_append_highByte u)

end Sys2Proof.Machine
end
